-- ==== Sys2Proof/Word.lean ====
section
/-!
DEFINITION. The vector types of the UB64 codec (00_scope.md R6, R7; 10_state.md R20 to R25).

Every vector is an unsigned number of a fixed width; bit 0 is the least significant bit. Nothing in
this hardware is signed.
-/

namespace Sys2Proof

/-- One byte of a UUID, 8 bits (R20). -/
abbrev Byte := BitVec 8

/-- One base-64 digit, the index of a symbol in the alphabet, 6 bits (R22). -/
abbrev Digit := BitVec 6

/-- One character code, 8 bits (R25). -/
abbrev CharCode := BitVec 8

/-- The byte vector `U`: 16 bytes, `byte[0]` in the most significant place (R21). -/
abbrev ByteVec := BitVec 128

/-- The digit vector `G`: 22 digits, `digit[0]` in the most significant place (R23). -/
abbrev DigitVec := BitVec 132

/-- The character vector `S`: 22 codes, `char[0]` in the most significant place (R25). -/
abbrev CharVec := BitVec 176

/-- The operand field `data` of a command, and the width of `RES` (R70, R32). -/
abbrev Data := BitVec 176

/-- The opcode field `op` of a command (R70). -/
abbrev Opcode := BitVec 3

/-- A command word, `op ++ data` (R70). -/
abbrev CmdWord := BitVec 179

/-- The error code held in `ERR` (R33). -/
abbrev ErrCode := BitVec 2

end Sys2Proof
end

