-- ==== Sys2Proof/Syntax.lean ====
section
/-!
DEFINITION. The commands of the block: one constructor per row of spec/opcode_table.json
(30_encoding.md R71).

An operand is exactly the operand field of 30_encoding.md R72. The bits of `data` above it are
ignored (R73), so they are no part of a command.
-/

namespace Sys2Proof

/-- The six commands and the two reserved opcodes (30_encoding.md R71). -/
inductive Instr where
  /-- Opcode `000`, reserved: the error `IllegalOp`, all of `data` ignored (R75, R163). -/
  | reserved0
  /-- Opcode `001`, digit to symbol, operand `data[5:0]` (R90). -/
  | d2s (i : Digit)
  /-- Opcode `010`, symbol to digit, operand `data[7:0]` (R91). -/
  | s2d (c : CharCode)
  /-- Opcode `011`, bytes to digits, operand `data[127:0]` (R103). -/
  | enc (u : ByteVec)
  /-- Opcode `100`, digits to bytes, operand `data[131:0]` (R119). -/
  | dec (g : DigitVec)
  /-- Opcode `101`, bytes to symbols, operand `data[127:0]` (R104). -/
  | encs (u : ByteVec)
  /-- Opcode `110`, symbols to bytes, operand `data[175:0]` (R120). -/
  | decs (cs : CharVec)
  /-- Opcode `111`, reserved: the error `IllegalOp`, all of `data` ignored (R75, R163). -/
  | reserved7
deriving DecidableEq, Repr

end Sys2Proof
end

