-- ==== Sys2Proof/WellFormed.lean ====
section
/-!
DEFINITION. Well-formedness: of a command (30_encoding.md R72) and of a line of the assembler that
writes one (30_encoding.md R77).

A command's operand has its field's width by its type, so every term of `Instr` passes; what can be
ill-formed is the source line, and each of its checks is a row of R77.
-/

namespace Sys2Proof

/-- The width in bits of a command's operand field; 0 where `data` is ignored whole
(30_encoding.md R72, R73). -/
def Instr.operandWidth : Instr → Nat
  | .reserved0 => 0
  | .d2s _ => 6
  | .s2d _ => 8
  | .enc _ => 128
  | .dec _ => 132
  | .encs _ => 128
  | .decs _ => 176
  | .reserved7 => 0

/-- A command's operand as a number (30_encoding.md R72: "Every operand is right-justified in
`data`; all values are unsigned"). -/
def Instr.operandNat : Instr → Nat
  | .reserved0 => 0
  | .d2s i => i.toNat
  | .s2d c => c.toNat
  | .enc u => u.toNat
  | .dec g => g.toNat
  | .encs u => u.toNat
  | .decs cs => cs.toNat
  | .reserved7 => 0

/-- A command is well-formed when its operand fits its field. -/
def Instr.wf (i : Instr) : Bool := i.operandNat < 2 ^ i.operandWidth

/-- The names an assembler line begins with; `op0` and `op7` are the spellings `.op 0` and `.op 7`
of the reserved opcodes (30_encoding.md R77). -/
inductive Mnemonic where
  | op0 | d2s | s2d | enc | dec | encs | decs | op7
deriving DecidableEq, Repr

/-- The operand forms of the assembler (30_encoding.md R77). -/
inductive AsmOperand where
  /-- `0x` followed by hex digits: allowed with every mnemonic. -/
  | hex (n : Nat)
  /-- A decimal number: allowed with `D2S`. -/
  | decimal (n : Nat)
  /-- `'c'`: allowed with `S2D`. -/
  | char (c : Char)
  /-- `"..."`, exactly 22 characters: allowed with `DECS`. -/
  | string (cs : List Char)
  /-- `[d0,d1,...,d21]`: allowed with `DEC`. -/
  | digits (ds : List Nat)
  /-- `RES`: the current content of `RES`, copied by the host: allowed with every mnemonic. -/
  | res
deriving DecidableEq, Repr

/-- One line of the assembler, `MNEMONIC operand` (30_encoding.md R77). -/
structure AsmLine where
  mnemonic : Mnemonic
  operand : AsmOperand
deriving DecidableEq, Repr

/-- The character has an ASCII code (30_encoding.md R77: "the ASCII code of `c`"). -/
def isAscii (c : Char) : Bool := c.toNat < 128

/-- Which operand forms a mnemonic takes, and what each form must satisfy (30_encoding.md R77).
The dynamic rule of the form `RES`, "legal only when `RVALID = 1`", is checked when the command is
accepted (Machine/Step.lean). -/
def AsmLine.wf (l : AsmLine) : Bool :=
  match l.operand with
  | .hex n => n < 2 ^ 176
  | .decimal n => l.mnemonic == .d2s && n < 2 ^ 176
  | .char c => l.mnemonic == .s2d && isAscii c
  | .string cs => l.mnemonic == .decs && cs.length == 22 && cs.all isAscii
  | .digits ds => l.mnemonic == .dec && ds.length == 22 && ds.all (· < 64)
  | .res => true

end Sys2Proof
end

