-- ==== Sys2Proof/Decode.lean ====
section
/-!
DEFINITION. The decoder and the encoder of the 179-bit command word (30_encoding.md R70 to R73,
R76).
-/

namespace Sys2Proof

/-! ### The fields of a command word -/

/-- Field `op`, bits 178 to 176 (30_encoding.md R70). -/
def opField (w : CmdWord) : Opcode := w.extractLsb' 176 3

/-- Field `data`, bits 175 to 0 (30_encoding.md R70). -/
def dataField (w : CmdWord) : Data := w.extractLsb' 0 176

/-- The command word `op ++ data` (30_encoding.md R70). -/
def mkWord (op : Opcode) (data : Data) : CmdWord := op ++ data

/-- Operand of `D2S`: `data[5:0]` (30_encoding.md R72). -/
def fieldDigit (d : Data) : Digit := d.extractLsb' 0 6

/-- Operand of `S2D`: `data[7:0]` (30_encoding.md R72). -/
def fieldChar (d : Data) : CharCode := d.extractLsb' 0 8

/-- Operand of `ENC` and `ENCS`: `data[127:0]` (30_encoding.md R72). -/
def fieldBytes (d : Data) : ByteVec := d.extractLsb' 0 128

/-- Operand of `DEC`: `data[131:0]` (30_encoding.md R72). -/
def fieldDigits (d : Data) : DigitVec := d.extractLsb' 0 132

/-- Operand of `DECS`: `data[175:0]` (30_encoding.md R72). -/
def fieldChars (d : Data) : CharVec := d.extractLsb' 0 176

/-! ### Decoding -/

/-- The command that an opcode and an operand stand for (30_encoding.md R71, R72). Every opcode has
a row, so nothing is refused; bits of `data` above the operand field are not read (R73). -/
def decodeFields (op : Opcode) (data : Data) : Instr :=
  match op with
  | 0b000#3 => .reserved0
  | 0b001#3 => .d2s (fieldDigit data)
  | 0b010#3 => .s2d (fieldChar data)
  | 0b011#3 => .enc (fieldBytes data)
  | 0b100#3 => .dec (fieldDigits data)
  | 0b101#3 => .encs (fieldBytes data)
  | 0b110#3 => .decs (fieldChars data)
  | _ => .reserved7 -- `111`, the one opcode that is left

/-- Decoding is total on command words: "Every command is 179 bits and its opcode alone selects the
operation" (30_encoding.md R76). -/
def decode (w : CmdWord) : Instr := decodeFields (opField w) (dataField w)

/-- Why a string of bits is no command. -/
inductive DecodeError where
  /-- A bit above bit 178 is set: "There is one command length", 179 bits (R70). -/
  | widerThanCommandWord
deriving DecidableEq, Repr

/-- Decoding of a number that need not be a command word: every number below `2^179` is one
(30_encoding.md R70, R76), any other is rejected by name. -/
def decodeNat (w : Nat) : Except DecodeError Instr :=
  if w < 2 ^ 179 then .ok (decode (BitVec.ofNat 179 w)) else .error .widerThanCommandWord

/-- The instruction read from a row of spec/opcode_table.json whose bits are `w`. A command is one
179-bit word, numbered as the table numbers it (30_encoding.md R70), so the bits need no
rearrangement and the bit count `nbits` adds nothing to the number. -/
def decodeTableWord (_nbits w : Nat) : Option Instr :=
  match decodeNat w with
  | .ok i => some i
  | .error _ => none

/-! ### Encoding -/

/-- The opcode of a command (30_encoding.md R71). -/
def Instr.opcode : Instr → Opcode
  | .reserved0 => 0b000#3
  | .d2s _ => 0b001#3
  | .s2d _ => 0b010#3
  | .enc _ => 0b011#3
  | .dec _ => 0b100#3
  | .encs _ => 0b101#3
  | .decs _ => 0b110#3
  | .reserved7 => 0b111#3

/-- The operand right-justified in `data`, the unused bits zero (30_encoding.md R72; R77: "The
assembler fills unused bits of `data` with zeros"). -/
def Instr.data : Instr → Data
  | .reserved0 => 0
  | .d2s i => i.setWidth 176
  | .s2d c => c.setWidth 176
  | .enc u => u.setWidth 176
  | .dec g => g.setWidth 176
  | .encs u => u.setWidth 176
  | .decs cs => cs
  | .reserved7 => 0

/-- The command word of a command (30_encoding.md R70). -/
def encode (i : Instr) : CmdWord := mkWord i.opcode i.data

/-! ### The opcode table as masks (30_encoding.md R71) -/

/-- The mask of every row: `0x7 << 176` (30_encoding.md R71). -/
def rowMask : CmdWord := 0x700000000000000000000000000000000000000000000#179

/-- The column `match` of the opcode table, row by row (spec/opcode_table.json). -/
def rowMatch : List CmdWord :=
  [0x000000000000000000000000000000000000000000000#179,
   0x100000000000000000000000000000000000000000000#179,
   0x200000000000000000000000000000000000000000000#179,
   0x300000000000000000000000000000000000000000000#179,
   0x400000000000000000000000000000000000000000000#179,
   0x500000000000000000000000000000000000000000000#179,
   0x600000000000000000000000000000000000000000000#179,
   0x700000000000000000000000000000000000000000000#179]

/-- The place in `rowMatch` of a command's row. -/
def Instr.row : Instr → Nat
  | .reserved0 => 0
  | .d2s _ => 1
  | .s2d _ => 2
  | .enc _ => 3
  | .dec _ => 4
  | .encs _ => 5
  | .decs _ => 6
  | .reserved7 => 7

/-- The bits of a command word that are read: the opcode and the operand field
(30_encoding.md R70, R72). -/
def Instr.readMask (i : Instr) : CmdWord :=
  rowMask ||| BitVec.ofNat 179 (2 ^ i.operandWidth - 1)

end Sys2Proof
end

