-- ==== Sys2Proof/Machine/Operands.lean ====
section
/-!
DEFINITION. The byte, digit and character sequences inside the vectors `U`, `G` and `S`
(00_scope.md R7, R8; 10_state.md R21, R23, R25; 20_memory.md R56).

Everything is most significant first: element 0 of a sequence stands in the top bits.
-/

namespace Sys2Proof.Machine

/-- `byte[i] = U[127-8i : 120-8i]` for `i` in 0..15 (10_state.md R21). -/
def byteAt (u : ByteVec) (i : Nat) : Byte := u.extractLsb' (120 - 8 * i) 8

/-- `digit[k] = G[131-6k : 126-6k]` for `k` in 0..21 (10_state.md R23). -/
def digitAt (g : DigitVec) (k : Nat) : Digit := g.extractLsb' (126 - 6 * k) 6

/-- `char[k] = S[175-8k : 168-8k]` for `k` in 0..21 (10_state.md R25). -/
def charAt (cs : CharVec) (k : Nat) : CharCode := cs.extractLsb' (168 - 8 * k) 8

/-- The 16 bytes of `U`, `byte[0]` first (10_state.md R20, R21). -/
def bytesOf (u : ByteVec) : List Byte := (List.range 16).map (byteAt u)

/-- The 22 digits of `G`, `digit[0]` first (10_state.md R22, R23). -/
def digitsOf (g : DigitVec) : List Digit := (List.range 22).map (digitAt g)

/-- The 22 character codes of `S`, `char[0]` first (10_state.md R25). -/
def charsOf (cs : CharVec) : List CharCode := (List.range 22).map (charAt cs)

/-- The value of `x[0] ++ x[1] ++ ...`, the first element in the most significant place: by R7,
`a ++ b` has the value `a * 2^width(b) + b` (00_scope.md R7). -/
def concatValue {w : Nat} (xs : List (BitVec w)) : Nat :=
  xs.foldl (fun acc x => acc * 2 ^ w + x.toNat) 0

/-- 16 bytes as the vector `U` (10_state.md R21). -/
def packBytes (bs : List Byte) : ByteVec := BitVec.ofNat 128 (concatValue bs)

/-- 22 digits as the vector `G` (10_state.md R23). -/
def packDigits (ds : List Digit) : DigitVec := BitVec.ofNat 132 (concatValue ds)

/-- 22 character codes as the vector `S` (10_state.md R25). -/
def packChars (cs : List CharCode) : CharVec := BitVec.ofNat 176 (concatValue cs)

end Sys2Proof.Machine
end

