-- ==== Sys2Proof/Config.lean ====
section
/-!
DEFINITION. What the spec leaves open: the free values and the implementation's parameters.

Each constant is opaque: it has no body, so nothing can be proved about the value it holds, and a
theorem that mentions one holds whatever an implementation puts there.
-/

namespace Sys2Proof.Config

/-- What `RES` holds after reset and after a command that ended in an error: "unspecified"
(10_state.md R32, R40; 60_exceptions.md R165; 93_implementation_defined.md U5, U6). The argument is
the state's draw counter, so that two such moments share no value. Assumption log 1, 2. -/
opaque unspecifiedRes : Nat → Data

/-- The output `rev_dig` of unit `symbol_lut` while `rev_hit = 0`, as a function of the unit's
current input (10_state.md R28, R31; U7). Assumption log 3. -/
opaque missDigit : CharCode → Digit

/-- `LAT(op)`: clock edges from the acceptance of a command to its completion; 0 is completion at
the accepting edge (70_reset_and_hazards.md R193; decision D19: OPEN). Assumption log 4. -/
opaque latency : Opcode → Nat

/-- `HEX_ACCEPT_UPPER`: whether the host's hex parser takes `A` to `F`
(43_host_text_layer.md R136; decision D23: OPEN, host side). Assumption log 5. -/
opaque hexAcceptUpper : Bool

/-- The platform's random facility behind `new_uuid()`: "the host choosing an arbitrary `U` (a draw
under no law)" (43_host_text_layer.md R143). Assumption log 6. -/
opaque randomUuid : Nat → ByteVec

end Sys2Proof.Config
end

