-- ==== Sys2Proof/Machine/State.lean ====
section
/-!
DEFINITION. The state of the block and of what stands at its ports (10_state.md R32 to R40).

The spec's registers are `res`, `err` and `rvalid`. `inFlight` is the command between its acceptance
and its completion, which R36, R186 and R191 speak of. `inputs` and `draws` are the model's own: what
the host will drive onto the input ports, and the counter behind the free values.
-/

namespace Sys2Proof.Machine

/-- Where the host takes the operand of a command from. -/
inductive HostOperand where
  /-- The 176 bits the host drives onto `cmd_data` (10_state.md R36). -/
  | data (d : Data)
  /-- The content of `RES`, copied by the host into `data`; "legal only when `RVALID = 1`"
  (30_encoding.md R77). -/
  | res
deriving DecidableEq, Repr

/-- A command as the host presents it: `cmd_op` and the source of `cmd_data`. -/
structure HostCommand where
  op : Opcode
  operand : HostOperand
deriving DecidableEq, Repr

/-- The input ports at one clock edge (10_state.md R36): the reset input, and the command port, where
`none` is `cmd_valid = 0`. -/
structure Edge where
  rst : Bool
  cmd : Option HostCommand
deriving DecidableEq, Repr

/-- An edge at which the host drives nothing: `rst` released, `cmd_valid = 0`. -/
def Edge.idle : Edge := { rst := false, cmd := none }

/-- An edge at which the host presents a command. -/
def Edge.present (c : HostCommand) : Edge := { rst := false, cmd := some c }

/-- An edge at which the reset input is asserted. -/
def Edge.reset : Edge := { rst := true, cmd := none }

/-- An accepted command that has not completed: its word, sampled once at acceptance (R191), and how
many more edges pass before the one at which it completes. -/
structure InFlight where
  word : CmdWord
  remaining : Nat
deriving DecidableEq, Repr

/-- The machine's state. -/
structure State where
  /-- `RES`, the result register, 176 bits (10_state.md R32). -/
  res : Data
  /-- `ERR`, the error code, 2 bits (10_state.md R33). -/
  err : ErrCode
  /-- `RVALID`, the result-valid flag, 1 bit (10_state.md R34). -/
  rvalid : Bool
  /-- The command in flight, if there is one (10_state.md R36; 70_reset_and_hazards.md R186). -/
  inFlight : Option InFlight
  /-- What the host drives at the coming clock edges, the next edge first; past the end of the list
  the ports are idle (30_encoding.md R79: "a finite list of commands that the host issues in order").
  The model's own field. -/
  inputs : List Edge
  /-- How many free values have been drawn. The model's own field. -/
  draws : Nat
deriving DecidableEq, Repr

/-- Why a step stops. -/
inductive Fault where
  /-- Raised when the host consumes `RES` while `RVALID = 0`: by `step`, where a command whose
  operand is `RES` would be accepted, and by the host's text layer. Safe: "A model faults or refuses a
  host step that consumes `RES` with `RVALID = 0`" (70_reset_and_hazards.md R190). -/
  | resNotValid
deriving DecidableEq, Repr

/-- Why a step has no meaning. -/
inductive Refusal where
  /-- Raised by `exec` for an instruction that has no meaning yet. Safe: nothing is claimed of it. No
  arm of `exec` raises it. -/
  | notModelled (mnemonic : String)
deriving DecidableEq, Repr

/-- The block right after reset (10_state.md R40; 70_reset_and_hazards.md R185): `ERR = 0`,
`RVALID = 0`, no command in flight. `RES` is "unspecified" and "a model gives it no value", so it is
free value 0 (DESIGN CHOICE, assumption log 1), and one draw has been made. The host has yet to drive
anything. -/
def State.reset : State :=
  { res := Config.unspecifiedRes 0
    err := 0
    rvalid := false
    inFlight := none
    inputs := []
    draws := 1 }

end Sys2Proof.Machine
end

