-- ==== Sys2Proof/Machine/Flags.lean ====
section
/-!
DEFINITION. The error codes, the `STATUS` view and the output ports that show them
(10_state.md R33 to R36; 60_exceptions.md R161).
-/

namespace Sys2Proof.Machine

/-- The two errors that can arise in the block (60_exceptions.md R160 to R163). -/
inductive ErrorCause where
  /-- A character code of the operand is not in the alphabet (R162). -/
  | invalidSymbol
  /-- A reserved opcode (R163). -/
  | illegalOp
deriving DecidableEq, Repr

/-- The code of "no error" (60_exceptions.md R161). -/
def errNone : ErrCode := 0b00#2

/-- The code an error puts into `ERR` (60_exceptions.md R161). -/
def ErrorCause.code : ErrorCause → ErrCode
  | .invalidSymbol => 0b01#2
  | .illegalOp => 0b10#2

/-- `STATUS[2:0] = RVALID ++ ERR[1:0]` (10_state.md R35). -/
def State.status (s : State) : BitVec 3 := BitVec.ofBool s.rvalid ++ s.err

/-- The input ports at the coming edge: idle once the host's list is used up. -/
def State.pins (s : State) : Edge := s.inputs.headD Edge.idle

/-- Output port `cmd_ready`: `0` from a command's acceptance to its completion, and while `rst` is
asserted (10_state.md R36, R40; 70_reset_and_hazards.md R185). -/
def State.cmdReady (s : State) : Bool := !s.pins.rst && s.inFlight.isNone

end Sys2Proof.Machine
end

