-- ==== Sys2Proof/Machine/Ops.lean ====
section
/-!
DEFINITION. The named operations on the block's registers: a completion, good or bad, and reset, the
only writers there are (10_state.md §3), and the host's read of `RES`. There is no memory
(20_memory.md R50).
-/

namespace Sys2Proof.Machine

/-- `Complete_ok(v)`: `RES <- zext_176(v); ERR <- 0; RVALID <- 1` (00_scope.md R11;
30_encoding.md R74). -/
def State.completeOk {w : Nat} (s : State) (v : BitVec w) : State :=
  { s with res := v.setWidth 176, err := errNone, rvalid := true }

/-- `raise E`, the one exception entry of the block: `ERR <- code(E); RVALID <- 0;
RES <- unspecified`, and "Nothing else changes: there is no saved state, no mode change, no mask, no
stack, no vector, no control transfer" (60_exceptions.md R165). `RES` takes a fresh free value
(assumption log 2). There is no return from it: the next command runs as if the error had not
happened (R167). -/
def State.raiseError (s : State) (e : ErrorCause) : State :=
  { s with
    res := Config.unspecifiedRes s.draws
    err := e.code
    rvalid := false
    draws := s.draws + 1 }

/-- The reset input at work: `ERR = 0`, `RVALID = 0`, `RES` unspecified, and a command in flight "is
discarded: it never completes, writes nothing, and raises no error" (70_reset_and_hazards.md R185,
R186). -/
def State.applyReset (s : State) : State :=
  { s with
    res := Config.unspecifiedRes s.draws
    err := errNone
    rvalid := false
    inFlight := none
    draws := s.draws + 1 }

/-- The coming edge's inputs are used up. -/
def State.popEdge (s : State) : State := { s with inputs := s.inputs.tail }

/-- The command port after an accepted command has left it. -/
def State.withInFlight (s : State) (f : Option InFlight) : State := { s with inFlight := f }

/-- The same block before a host that goes on to drive these edges. -/
def State.withInputs (s : State) (es : List Edge) : State := { s with inputs := es }

/-- The host uses the output port `res`: allowed only while `RVALID = 1`
(70_reset_and_hazards.md R190). -/
def State.readRes (s : State) : Except Fault Data :=
  if s.rvalid then .ok s.res else .error .resNotValid

/-- The operand that the host drives onto `cmd_data`, or the fault of a host that copies a `RES` it
must not use (30_encoding.md R77; 70_reset_and_hazards.md R190). -/
def State.hostOperand (s : State) : HostOperand → Except Fault Data
  | .data d => .ok d
  | .res => s.readRes

end Sys2Proof.Machine
end

