-- ==== Sys2Proof/Machine/SymbolLut.lean ====
section
/-!
DEFINITION. Unit `symbol_lut` and its commands `D2S` and `S2D` (20_memory.md R50 to R55;
10_state.md R28; 40_symbol_lut.md R90, R91).
-/

namespace Sys2Proof.Machine

/-- The symbol table: the 64 character codes, index 0 first (20_memory.md R51). It is a constant, not
state (R54). -/
def symbolTable : List CharCode :=
  -- `0` to `9`
  [0x30, 0x31, 0x32, 0x33, 0x34, 0x35, 0x36, 0x37, 0x38, 0x39] ++
  -- `A` to `Z`
  [0x41, 0x42, 0x43, 0x44, 0x45, 0x46, 0x47, 0x48, 0x49, 0x4A, 0x4B, 0x4C, 0x4D,
   0x4E, 0x4F, 0x50, 0x51, 0x52, 0x53, 0x54, 0x55, 0x56, 0x57, 0x58, 0x59, 0x5A] ++
  -- `a` to `z`
  [0x61, 0x62, 0x63, 0x64, 0x65, 0x66, 0x67, 0x68, 0x69, 0x6A, 0x6B, 0x6C, 0x6D,
   0x6E, 0x6F, 0x70, 0x71, 0x72, 0x73, 0x74, 0x75, 0x76, 0x77, 0x78, 0x79, 0x7A] ++
  -- `_` and `$`
  [0x5F, 0x24]

/-- `LutFwd`, the forward direction, defined on every digit (20_memory.md R51). -/
def lutFwd (i : Digit) : CharCode :=
  symbolTable[i.toNat]'(Nat.lt_of_lt_of_le i.isLt (Nat.le_refl 64))

/-- `LutRev`, the reverse direction: the index at which the code stands in the table, `hit(i)` as
`some i`; `miss` is `none` (20_memory.md R52). -/
def lutRev (c : CharCode) : Option Digit :=
  (symbolTable.findIdx? (· == c)).map (BitVec.ofNat 6)

/-- The reverse output ports of unit `symbol_lut` (10_state.md R28). -/
structure RevPorts where
  revHit : Bool
  revDig : Digit
deriving DecidableEq, Repr

/-- Forward port `fwd_sym` as a function of `fwd_idx` (10_state.md R28). -/
def symbolLutFwd (fwdIdx : Digit) : CharCode := lutFwd fwdIdx

/-- Reverse ports as a function of `rev_chr`; on a miss `rev_dig` is unspecified, so it is a free
value (10_state.md R28, R31; assumption log 3). -/
def symbolLutRev (revChr : CharCode) : RevPorts :=
  match lutRev revChr with
  | some d => { revHit := true, revDig := d }
  | none => { revHit := false, revDig := Config.missDigit revChr }

/-- The reverse direction on a sequence of codes: all the digits, or `none` if one code misses
(42_decoder.md R120). -/
def lutRevAll : List CharCode → Option (List Digit)
  | [] => some []
  | c :: cs =>
    match lutRev c, lutRevAll cs with
    | some d, some ds => some (d :: ds)
    | _, _ => none

/-- `D2S` (40_symbol_lut.md R90). -/
def execD2s (i : Digit) (s : State) : Host.Outcome State Fault Refusal :=
  .next (s.completeOk (lutFwd i))

/-- `S2D` (40_symbol_lut.md R91). -/
def execS2d (c : CharCode) (s : State) : Host.Outcome State Fault Refusal :=
  match lutRev c with
  | some d => .next (s.completeOk d)
  | none => .next (s.raiseError .invalidSymbol)

end Sys2Proof.Machine
end

