-- ==== Sys2Proof/Machine/Decoder.lean ====
section
/-!
DEFINITION. Unit `base64_decoder` and its commands `DEC` and `DECS` (42_decoder.md R115 to R121),
group by group as R115 writes it; the closed form of R116 is a statement about it.
-/

namespace Sys2Proof.Machine

/-- Group 0: two digits as one byte, "the low 8 bits; values above 255 are accepted and truncated"
(42_decoder.md R115). -/
def decGroup0 (d0 d1 : Digit) : List Byte :=
  [BitVec.ofNat 8 ((d0.toNat * 64 + d1.toNat) % 256)]

/-- Four digits as a big-endian base-64 integer, split into three bytes (42_decoder.md R115). -/
def decGroup (d0 d1 d2 d3 : Digit) : List Byte :=
  let d := ((d0.toNat * 64 + d1.toNat) * 64 + d2.toNat) * 64 + d3.toNat
  [BitVec.ofNat 8 ((d >>> 16) &&& 0xFF), BitVec.ofNat 8 ((d >>> 8) &&& 0xFF),
    BitVec.ofNat 8 (d &&& 0xFF)]

/-- The 16 bytes of 22 digits: `byte[0]` from group 0, `byte[3g-2..3g]` from `digit[4g-2..4g+1]` for
`g` in 1..5 (42_decoder.md R115; 20_memory.md R57). -/
def decBytes (g : DigitVec) : List Byte :=
  decGroup0 (digitAt g 0) (digitAt g 1) ++
    [1, 2, 3, 4, 5].flatMap fun k =>
      decGroup (digitAt g (4 * k - 2)) (digitAt g (4 * k - 1)) (digitAt g (4 * k))
        (digitAt g (4 * k + 1))

/-- `Dec`, the function of unit `base64_decoder` and of its port `dec_u` (42_decoder.md R115;
10_state.md R30). -/
def decVec (g : DigitVec) : ByteVec := packBytes (decBytes g)

/-- A digit vector is canonical when `G[131:128] = 0` (42_decoder.md R117): a predicate of the spec
for its laws, which no command computes. -/
abbrev canonicalDigits (g : DigitVec) : Prop := g.extractLsb' 128 4 = 0#4

/-- `DEC` (42_decoder.md R119). -/
def execDec (g : DigitVec) (s : State) : Host.Outcome State Fault Refusal :=
  .next (s.completeOk (decVec g))

/-- `DECS`: all 22 codes hit and the digits are decoded, or one misses and no byte is delivered
(42_decoder.md R120, R121). -/
def execDecs (cs : CharVec) (s : State) : Host.Outcome State Fault Refusal :=
  match lutRevAll (charsOf cs) with
  | some ds => .next (s.completeOk (decVec (packDigits ds)))
  | none => .next (s.raiseError .invalidSymbol)

end Sys2Proof.Machine
end

