-- ==== Sys2Proof/Machine/Encoder.lean ====
section
/-!
DEFINITION. Unit `base64_encoder` and its commands `ENC` and `ENCS` (41_encoder.md R100 to R105),
group by group as R100 writes it; the closed form of R101 is a statement about it.
-/

namespace Sys2Proof.Machine

/-- Group 0, the first byte alone: two digits (41_encoder.md R100). -/
def encGroup0 (b : Byte) : List Digit :=
  [BitVec.ofNat 6 (b.toNat / 64), BitVec.ofNat 6 (b.toNat % 64)]

/-- `value <- (b0 << 16) | (b1 << 8) | b2` (41_encoder.md R100). -/
def groupValue (b0 b1 b2 : Byte) : Nat :=
  (b0.toNat <<< 16) ||| (b1.toNat <<< 8) ||| b2.toNat

/-- Three bytes as four digits, the most significant first (41_encoder.md R100). -/
def encGroup (b0 b1 b2 : Byte) : List Digit :=
  [0, 1, 2, 3].map fun j => BitVec.ofNat 6 (groupValue b0 b1 b2 / 64 ^ (3 - j) % 64)

/-- The 22 digits of 16 bytes: group 0 from `byte[0]`, group `g` in 1..5 from `byte[3g-2..3g]`
(41_encoder.md R100; 20_memory.md R57). -/
def encDigits (u : ByteVec) : List Digit :=
  encGroup0 (byteAt u 0) ++
    [1, 2, 3, 4, 5].flatMap fun g =>
      encGroup (byteAt u (3 * g - 2)) (byteAt u (3 * g - 1)) (byteAt u (3 * g))

/-- `Enc`, the function of unit `base64_encoder` and of its port `enc_g` (41_encoder.md R100;
10_state.md R29). -/
def encVec (u : ByteVec) : DigitVec := packDigits (encDigits u)

/-- `ENC` (41_encoder.md R103). -/
def execEnc (u : ByteVec) (s : State) : Host.Outcome State Fault Refusal :=
  .next (s.completeOk (encVec u))

/-- `ENCS`: every digit of `Enc(U)` looked up in the table (41_encoder.md R104). -/
def execEncs (u : ByteVec) (s : State) : Host.Outcome State Fault Refusal :=
  .next (s.completeOk (packChars ((digitsOf (encVec u)).map lutFwd)))

end Sys2Proof.Machine
end

