-- ==== Sys2Proof/Machine/Reserved.lean ====
section
/-!
DEFINITION. The two reserved opcodes (30_encoding.md R75; 60_exceptions.md R163): accepted like any
other command, completed with the error `IllegalOp`, whatever `data` holds.
-/

namespace Sys2Proof.Machine

/-- Opcode `000` (30_encoding.md R75). -/
def execReserved0 (s : State) : Host.Outcome State Fault Refusal :=
  .next (s.raiseError .illegalOp)

/-- Opcode `111` (30_encoding.md R75). -/
def execReserved7 (s : State) : Host.Outcome State Fault Refusal :=
  .next (s.raiseError .illegalOp)

end Sys2Proof.Machine
end

