-- ==== Sys2Proof/Machine/Dispatch.lean ====
section
/-!
DEFINITION. One arm per command (30_encoding.md R71).
-/

namespace Sys2Proof.Machine

def exec (i : Instr) (s : State) : Host.Outcome State Fault Refusal :=
  match i with
  | .reserved0 => Sys2Proof.Machine.execReserved0 s
  | .d2s d => Sys2Proof.Machine.execD2s d s
  | .s2d c => Sys2Proof.Machine.execS2d c s
  | .enc u => Sys2Proof.Machine.execEnc u s
  | .dec g => Sys2Proof.Machine.execDec g s
  | .encs u => Sys2Proof.Machine.execEncs u s
  | .decs cs => Sys2Proof.Machine.execDecs cs s
  | .reserved7 => Sys2Proof.Machine.execReserved7 s

end Sys2Proof.Machine
end

