-- ==== Sys2Proof/Machine/Port.lean ====
section
/-!
DEFINITION. The command port and the reset input at one clock edge (10_state.md R36;
70_reset_and_hazards.md R185, R186, R191 to R193).
-/

namespace Sys2Proof.Machine

/-- The command in flight completes: its word is decoded and executed as one atomic step
(20_memory.md R59, R61). -/
def completeWord (w : CmdWord) (s : State) : Host.Outcome State Fault Refusal :=
  exec (decode w) (s.withInFlight none)

/-- A command word is accepted: with `LAT(op) = 0` it completes at this edge, otherwise it is in
flight and completes `LAT(op)` edges later (70_reset_and_hazards.md R193; assumption log 4). -/
def acceptWord (w : CmdWord) (s : State) : Host.Outcome State Fault Refusal :=
  match Config.latency (opField w) with
  | 0 => completeWord w s
  | n + 1 => .next (s.withInFlight (some { word := w, remaining := n }))

/-- The host presents a command to a block that is ready: the word `cmd_op ++ cmd_data` is accepted
(10_state.md R36), unless the host copies a `RES` it must not use
(70_reset_and_hazards.md R190). -/
def acceptCommand (c : HostCommand) (s : State) : Host.Outcome State Fault Refusal :=
  match s.hostOperand c.operand with
  | .ok d => acceptWord (mkWord c.op d) s
  | .error f => .fault f

/-- The block at a clock edge with `rst` released. While a command is in flight, what stands at the
command port "is not accepted and not remembered" (70_reset_and_hazards.md R191). -/
def commandEdge (cmd : Option HostCommand) (s : State) : Host.Outcome State Fault Refusal :=
  match s.inFlight with
  | some { word := w, remaining := 0 } => completeWord w s
  | some { word := w, remaining := n + 1 } =>
    .next (s.withInFlight (some { word := w, remaining := n }))
  | none =>
    match cmd with
    | none => .next s
    | some c => acceptCommand c s

/-- The block at a clock edge: "Reset has priority over everything" (60_exceptions.md R169). -/
def clockEdge (s : State) : Host.Outcome State Fault Refusal :=
  if s.pins.rst then .next s.popEdge.applyReset else commandEdge s.pins.cmd s.popEdge

end Sys2Proof.Machine
end

