-- ==== Sys2Proof/Machine/Step.lean ====
section
/-!
DEFINITION. The step: one clock edge (10_state.md R36). The block has no program counter and fetches
nothing (10_state.md R37); a command comes in at the command port, and the one it executes is the one
in flight.
-/

namespace Sys2Proof.Machine

/-- One clock edge of the block and its host. -/
def step (s : State) : Host.Outcome State Fault Refusal := clockEdge s

/-- The word `w` as the command in flight, to complete at the coming edge, at which the host drives
nothing. Command words are numbered as spec/opcode_table.json numbers them, so the bit count `nbits`
adds nothing. Assumption log 7. -/
def State.withFetchWord (s : State) (_nbits w : Nat) : State :=
  { s with
    inFlight := some { word := BitVec.ofNat 179 w, remaining := 0 }
    inputs := Edge.idle :: s.inputs }

/-- `k` clock edges, stopping at the first fault or refusal. -/
def steps : Nat → State → Host.Outcome State Fault Refusal
  | 0, s => .next s
  | k + 1, s =>
    match step s with
    | .next t => steps k t
    | .fault f => .fault f
    | .refused r => .refused r

end Sys2Proof.Machine
end

