-- ==== Sys2Proof/Machine/Assembler.lean ====
section
/-!
DEFINITION. The assembler: a line as the command a host presents (30_encoding.md R77).
-/

namespace Sys2Proof.Machine

/-- The opcode a mnemonic names (30_encoding.md R71, R77). -/
def mnemonicOpcode : Mnemonic → Opcode
  | .op0 => 0b000#3
  | .d2s => 0b001#3
  | .s2d => 0b010#3
  | .enc => 0b011#3
  | .dec => 0b100#3
  | .encs => 0b101#3
  | .decs => 0b110#3
  | .op7 => 0b111#3

/-- The ASCII code of a character (30_encoding.md R77). -/
def asciiCode (c : Char) : CharCode := BitVec.ofNat 8 c.toNat

/-- The operand of a well-formed line: right-justified, the bits above it zero (30_encoding.md
R77). -/
def asmOperand : AsmOperand → HostOperand
  | .hex n => .data (BitVec.ofNat 176 n)
  | .decimal n => .data (BitVec.ofNat 176 n)
  | .char c => .data ((asciiCode c).setWidth 176)
  | .string cs => .data (packChars (cs.map asciiCode))
  | .digits ds => .data ((packDigits (ds.map (BitVec.ofNat 6))).setWidth 176)
  | .res => .res

/-- A line as a command; `none` for a line that is not well-formed (30_encoding.md R77). -/
def assemble (l : AsmLine) : Option HostCommand :=
  if l.wf then some { op := mnemonicOpcode l.mnemonic, operand := asmOperand l.operand } else none

end Sys2Proof.Machine
end

