-- ==== Sys2Proof/Machine/HostText.lean ====
section
/-!
DEFINITION. The host's text layer around the block (43_host_text_layer.md R135 to R146). It is not
hardware (00_scope.md R5): these are the host's reference functions, the string functions of the
source among them, which issue commands to the block and read its registers.
-/

namespace Sys2Proof.Machine

/-- The errors of the source's functions (43_host_text_layer.md R145). -/
inductive TextError where
  /-- The input is not exactly 32 hex digits (R136). -/
  | invalidHexInput
  /-- `expand` with other than 22 characters, `split` with other than 32 (R139, R141). -/
  | invalidLength
  /-- The block reported `ERR = 1` (R139). -/
  | invalidSymbol
deriving DecidableEq, Repr

/-- What a text function leaves: the block's state, and the result or the error that the function
ends in; or the fault or refusal of a step of the block. -/
abbrev TextOutcome (α : Type) := Host.Outcome (State × Except TextError α) Fault Refusal

/-! ### Issuing one command -/

/-- How many edges the host waits for `cmd_ready = 1` (43_host_text_layer.md R140 (d)). -/
def State.busyEdges (s : State) : Nat :=
  match s.inFlight with
  | none => 0
  | some f => f.remaining + 1

/-- The edges of one interaction: wait for `cmd_ready`, present the command once, wait for its
completion (43_host_text_layer.md R146). -/
def issueEdges (c : HostCommand) (s : State) : List Edge :=
  List.replicate s.busyEdges Edge.idle ++
    Edge.present c :: List.replicate (Config.latency c.op) Edge.idle

/-- The host issues one command and waits until it has completed (43_host_text_layer.md R146). -/
def issue (c : HostCommand) (s : State) : Host.Outcome State Fault Refusal :=
  let es := issueEdges c s
  steps es.length (s.withInputs (es ++ s.inputs))

/-! ### Hex strings -/

/-- The value of a hex digit: `0` to `9`, `a` to `f`, and `A` to `F` where the parser accepts them
(43_host_text_layer.md R135, R136). -/
def hexVal (acceptUpper : Bool) (c : Char) : Option Nat :=
  if 0x30 ≤ c.toNat ∧ c.toNat ≤ 0x39 then some (c.toNat - 0x30)
  else if 0x61 ≤ c.toNat ∧ c.toNat ≤ 0x66 then some (c.toNat - 0x61 + 10)
  else if 0x41 ≤ c.toNat ∧ c.toNat ≤ 0x46 then
    if acceptUpper then some (c.toNat - 0x41 + 10) else none
  else none

/-- `byte[i] = 16 * hexval(h[2i]) + hexval(h[2i+1])`, pair by pair; `none` for an odd length or a
character that is no hex digit (43_host_text_layer.md R136). -/
def hexPairs (acceptUpper : Bool) : List Char → Option (List Byte)
  | [] => some []
  | [_] => none
  | a :: b :: rest =>
    match hexVal acceptUpper a, hexVal acceptUpper b, hexPairs acceptUpper rest with
    | some x, some y, some bs => some (BitVec.ofNat 8 (16 * x + y) :: bs)
    | _, _, _ => none

/-- `hex_parse`, the 16 bytes as the vector `U` (43_host_text_layer.md R136). -/
def hexParse (acceptUpper : Bool) (h : List Char) : Except TextError ByteVec :=
  if h.length = 32 then
    match hexPairs acceptUpper h with
    | some bs => .ok (packBytes bs)
    | none => .error .invalidHexInput
  else .error .invalidHexInput

/-- A hex digit in lower case (43_host_text_layer.md R135, R137). -/
def hexChar (n : Nat) : Char :=
  if n < 10 then Char.ofNat (0x30 + n) else Char.ofNat (0x61 + (n - 10))

/-- A byte as two hex digits, the most significant nibble first (43_host_text_layer.md R137). -/
def hexByte (b : Byte) : List Char := [hexChar (b.toNat / 16), hexChar (b.toNat % 16)]

/-- `hex_format` (43_host_text_layer.md R137). -/
def hexFormat (u : ByteVec) : List Char := (bytesOf u).flatMap hexByte

/-! ### The two string functions -/

/-- The code the host frames for a character. A character that has no ASCII code "is outside the
alphabet" and is mapped to `0xFF`, a code that misses (43_host_text_layer.md R139; assumption
log 8). -/
def frameCode (c : Char) : CharCode := if isAscii c then asciiCode c else 0xFF

/-- The character a code stands for. -/
def codeChar (c : CharCode) : Char := Char.ofNat c.toNat

/-- `compress` (43_host_text_layer.md R138). -/
def compress (h : List Char) (s : State) : TextOutcome (List Char) :=
  match hexParse Config.hexAcceptUpper h with
  | .error e => .next (s, .error e)
  | .ok u =>
    match issue { op := 0b101#3, operand := .data (u.setWidth 176) } s with
    | .next t =>
      match t.readRes with
      | .ok r => .next (t, .ok ((charsOf r).map codeChar))
      | .error f => .fault f
    | .fault f => .fault f
    | .refused r => .refused r

/-- `expand` (43_host_text_layer.md R139): the length is checked before any command is issued. -/
def expand (c : List Char) (s : State) : TextOutcome (List Char) :=
  if c.length = 22 then
    match issue { op := 0b110#3, operand := .data (packChars (c.map frameCode)) } s with
    | .next t =>
      if t.err = ErrorCause.invalidSymbol.code then .next (t, .error .invalidSymbol)
      else
        match t.readRes with
        | .ok r => .next (t, .ok (hexFormat (r.setWidth 128)))
        | .error f => .fault f
    | .fault f => .fault f
    | .refused r => .refused r
  else .next (s, .error .invalidLength)

/-! ### Hyphens, random generators, shell -/

/-- `split`, the hyphen formatter (43_host_text_layer.md R141; 90_conflicts.md C8). -/
def split (h : List Char) : Except TextError (List Char) :=
  if h.length = 32 then
    .ok (h.take 8 ++ ['-'] ++ (h.drop 8).take 4 ++ ['-'] ++ (h.drop 12).take 4 ++ ['-'] ++
      (h.drop 16).take 4 ++ ['-'] ++ h.drop 20)
  else .error .invalidLength

/-- Hyphen stripping: "every `-` is removed" (43_host_text_layer.md R142). -/
def stripHyphens (cs : List Char) : List Char := cs.filter (· != '-')

/-- `new_uuid()`: 16 bytes of the platform's random facility, formatted (43_host_text_layer.md R143;
assumption log 6). -/
def newUuid (s : State) : State × List Char :=
  ({ s with draws := s.draws + 1 }, hexFormat (Config.randomUuid s.draws))

/-- `new_ifc()`: `new_uuid()`, then the Compressor (43_host_text_layer.md R143). -/
def newIfc (s : State) : TextOutcome (List Char) :=
  match newUuid s with
  | (t, h) => compress h t

/-- The flags of the shell: `-i` and `-u` "are mutually exclusive", `-n` may stand beside either
(43_host_text_layer.md R144). -/
inductive Conversion where
  | ifc (text : List Char)
  | uuid (text : List Char)
deriving DecidableEq, Repr

/-- The command line's surface: what is printed, if anything. The branch of `-i` or `-u` is checked
first, so `-n` beside it is ignored; with no flag nothing is printed (43_host_text_layer.md R144). -/
def tool (conversion : Option Conversion) (new : Bool) (s : State) :
    TextOutcome (Option (List Char)) :=
  match conversion with
  | some (.ifc c) =>
    match expand c s with
    | .next (t, .ok h) => .next (t, (split h).map some)
    | .next (t, .error e) => .next (t, .error e)
    | .fault f => .fault f
    | .refused r => .refused r
  | some (.uuid u) =>
    match compress (stripHyphens u) s with
    | .next (t, .ok cs) => .next (t, .ok (some cs))
    | .next (t, .error e) => .next (t, .error e)
    | .fault f => .fault f
    | .refused r => .refused r
  | none =>
    if new then
      match newUuid s with
      | (t, h) => .next (t, (split h).map some)
    else .next (s, .ok none)

end Sys2Proof.Machine
end

