-- ==== Sys2Proof/Safety.lean ====
section
/-!
DEFINITION. What counts as a safe run, in the terms the statements use.
-/

namespace Sys2Proof.Machine

/-- `STATUS` has a legal value: `000`, `100`, `001` or `010` (10_state.md R35; so `ERR` is never 3,
60_exceptions.md R161). -/
abbrev State.Legal (s : State) : Prop :=
  s.status = 0b000#3 ∨ s.status = 0b100#3 ∨ s.status = 0b001#3 ∨ s.status = 0b010#3

/-- At the coming edge the host keeps its duty of 43_host_text_layer.md R140 (c): it does not have a
command accepted whose operand is a `RES` that is not valid. -/
abbrev State.HostKeepsDuty (s : State) : Prop :=
  s.cmdReady = true → ∀ c, s.pins.cmd = some c → c.operand = .res → s.rvalid = true

/-- `t` is what an error with this code leaves of `s`: `ERR` and `RVALID` written, `RES` not spoken
of, nothing else of the block changed (60_exceptions.md R165). -/
abbrev ErrorEntry (code : ErrCode) (s t : State) : Prop :=
  t.err = code ∧ t.rvalid = false ∧ t.inFlight = s.inFlight ∧ t.inputs = s.inputs

/-- The character is a hex digit of value `n`: `0` to `9`, `a` to `f`, and `A` to `F` where the parser
accepts them (43_host_text_layer.md R135, R136). -/
abbrev IsHexDigit (acceptUpper : Bool) (c : Char) (n : Nat) : Prop :=
  (0x30 ≤ c.toNat ∧ c.toNat ≤ 0x39 ∧ n = c.toNat - 0x30) ∨
  (0x61 ≤ c.toNat ∧ c.toNat ≤ 0x66 ∧ n = c.toNat - 0x61 + 10) ∨
  (acceptUpper = true ∧ 0x41 ≤ c.toNat ∧ c.toNat ≤ 0x46 ∧ n = c.toNat - 0x41 + 10)

/-- The string is 32 hex digits that write the bytes of `U`:
`byte[i] = 16 * hexval(h[2i]) + hexval(h[2i+1])` (43_host_text_layer.md R136). -/
def SpellsBytes (acceptUpper : Bool) (h : List Char) (u : ByteVec) : Prop :=
  h.length = 32 ∧ ∀ i < 16, ∃ x y m n, h[2 * i]? = some x ∧ h[2 * i + 1]? = some y ∧
    IsHexDigit acceptUpper x m ∧ IsHexDigit acceptUpper y n ∧ (byteAt u i).toNat = 16 * m + n

/-- The string is no input of the Compressor: it is not 32 characters long, or a character of it is no
hex digit (43_host_text_layer.md R136). -/
def MalformedHex (acceptUpper : Bool) (h : List Char) : Prop :=
  h.length ≠ 32 ∨ ∃ c ∈ h, ∀ n, ¬ IsHexDigit acceptUpper c n

/-- The 22 characters are the symbols of the 22 digits of `G` (10_state.md R22, R24). -/
def SpellsDigits (out : List Char) (g : DigitVec) : Prop :=
  out.length = 22 ∧ ∀ k < 22, out[k]? = some (Char.ofNat (lutFwd (digitAt g k)).toNat)

/-- A run of the block: the host drives some edges and the block takes `k` of them, from reset. -/
def ReachedFromReset (t : State) : Prop :=
  ∃ es k, steps k (State.reset.withInputs es) = .next t

end Sys2Proof.Machine
end

