-- ==== Sys2Proof/Certificates/Slice0/Obligations.lean ====
section
/-!
DEFINITION. The statements about the model, for the provers. Each is listed in OBLIGATIONS.json with
the rules of spec/ it rests on.
-/

open Sys2Proof Sys2Proof.Machine

/-! ### The command word -/

/-- The worked encodings of 30_encoding.md §5 and of 95_test_vectors.md stand for what they are
written for: one word of each row of the opcode table, and two with ignored bits set. -/
def Obligations.WorkedEncodingsDecode : Prop :=
  decode 0x000000000000000000000000000000000000000001234#179 = .reserved0 ∧
  decode 0x10000000000000000000000000000000000000000003f#179 = .d2s 63 ∧
  decode 0x10000000000000000000000000000000000002af37bff#179 = .d2s 63 ∧
  decode 0x200000000000000000000000000000000000000000024#179 = .s2d 0x24 ∧
  decode 0x300000000ffff0123456789abcdef0123456789abcdef#179
    = .enc 0x0123456789abcdef0123456789abcdef ∧
  decode 0x4000000000000ffffffffffffffffffffffffffffffff#179
    = .dec 0x0ffffffffffffffffffffffffffffffff ∧
  decode 0x50000000000000123456789abcdef0123456789abcdef#179
    = .encs 0x0123456789abcdef0123456789abcdef ∧
  decode 0x630303030303030303030303030303030303030303030#179
    = .decs 0x30303030303030303030303030303030303030303030 ∧
  decode 0x7ffffffffffffffffffffffffffffffffffffffffffff#179 = .reserved7

/-- R72: the operand of each assigned opcode is the low bits of `data`, as wide as its field. -/
def Obligations.OperandIsLowBitsOfData : Prop :=
  ∀ data : Data,
    decode (0b001#3 ++ data) = .d2s (data.extractLsb' 0 6) ∧
    decode (0b010#3 ++ data) = .s2d (data.extractLsb' 0 8) ∧
    decode (0b011#3 ++ data) = .enc (data.extractLsb' 0 128) ∧
    decode (0b101#3 ++ data) = .encs (data.extractLsb' 0 128) ∧
    decode (0b100#3 ++ data) = .dec (data.extractLsb' 0 132) ∧
    decode (0b110#3 ++ data) = .decs data

/-- R71: a command word is recognised by its row of the opcode table, `word & mask = match`, and by
no other row. -/
def Obligations.WordMatchesItsTableRowOnly : Prop :=
  ∀ (w : CmdWord) (n : Nat), rowMatch[n]? = some (w &&& rowMask) ↔ n = (decode w).row

/-- R73: the bits of `data` above the operand field change nothing that the command does, and for the
reserved opcodes no bit of `data` does. -/
def Obligations.BitsAboveOperandAreIgnored : Prop :=
  ∀ s : State,
    (∀ (h h' : BitVec 170) (lo : BitVec 6),
      completeWord (0b001#3 ++ (h ++ lo)) s = completeWord (0b001#3 ++ (h' ++ lo)) s) ∧
    (∀ (h h' : BitVec 168) (lo : BitVec 8),
      completeWord (0b010#3 ++ (h ++ lo)) s = completeWord (0b010#3 ++ (h' ++ lo)) s) ∧
    (∀ (h h' : BitVec 48) (lo : BitVec 128),
      completeWord (0b011#3 ++ (h ++ lo)) s = completeWord (0b011#3 ++ (h' ++ lo)) s) ∧
    (∀ (h h' : BitVec 44) (lo : BitVec 132),
      completeWord (0b100#3 ++ (h ++ lo)) s = completeWord (0b100#3 ++ (h' ++ lo)) s) ∧
    (∀ (h h' : BitVec 48) (lo : BitVec 128),
      completeWord (0b101#3 ++ (h ++ lo)) s = completeWord (0b101#3 ++ (h' ++ lo)) s) ∧
    (∀ d d' : Data, completeWord (0b000#3 ++ d) s = completeWord (0b000#3 ++ d') s) ∧
    (∀ d d' : Data, completeWord (0b111#3 ++ d) s = completeWord (0b111#3 ++ d') s)

/-- Decoding gives an encoded command back, with every operand at every value; and encoding gives a
command word back with its ignored bits cleared. -/
def Obligations.DecodeAndEncodeAgree : Prop :=
  (∀ i : Instr, decode (encode i) = i) ∧
  (∀ w : CmdWord, encode (decode w) = w &&& (decode w).readMask)

/-! ### The clock edge -/

/-- A step completes the command in flight: it runs `exec` on the decoded word, after the edge's inputs
are used up and the command has left the port. A word placed by `withFetchWord` is such a command
(that a command in flight is held in the state is the model's choice: assumption log 7, 10). -/
def Obligations.StepRunsTheDecodedCommand : Prop :=
  (∀ (s : State) (w : CmdWord), s.inFlight = some { word := w, remaining := 0 } →
    s.pins.rst = false →
    step s = exec (decode w) { s with inFlight := none, inputs := s.inputs.tail }) ∧
  (∀ (s : State) (nbits w : Nat),
    step (s.withFetchWord nbits w) = exec (decode (BitVec.ofNat 179 w)) { s with inFlight := none })

/-- R36: a block that is ready accepts the word `cmd_op ++ cmd_data` that stands at the port. It
completes at this edge if `LAT(op) = 0`, and otherwise `LAT(op)` edges later (the latency is free:
assumption log 4). -/
def Obligations.ReadyBlockAcceptsCommand : Prop :=
  ∀ (s : State) (op : Opcode) (d : Data), s.cmdReady = true →
    s.pins.cmd = some { op := op, operand := .data d } →
    step s =
      match Config.latency op with
      | 0 => exec (decode (op ++ d)) { s with inputs := s.inputs.tail }
      | n + 1 => .next { s with
          inFlight := some { word := op ++ d, remaining := n }, inputs := s.inputs.tail }

/-- R191: while a command is in flight, what stands at the command port makes no difference, so it is
not accepted, not remembered, and does not touch the operand that was sampled. That the command in
flight is a record in the state is the model's choice (assumption log 10). -/
def Obligations.BusyBlockIgnoresCommandPort : Prop :=
  ∀ (s : State) (f : InFlight) (c c' : Option HostCommand) (es : List Edge),
    s.inFlight = some f →
    (s.withInputs ({ rst := false, cmd := c } :: es)).cmdReady = false ∧
    step (s.withInputs ({ rst := false, cmd := c } :: es))
      = step (s.withInputs ({ rst := false, cmd := c' } :: es))

/-- An edge at which a command in flight does not complete yet changes no register: a read of them
still sees the previous command's outcome (R61, R146). That such an edge takes the record in flight
from `n + 1` edges left to `n` is the model's own timing, a choice (assumption log 4, 10). -/
def Obligations.WaitingEdgeKeepsRegisters : Prop :=
  ∀ (s : State) (w : CmdWord) (n : Nat),
    s.inFlight = some { word := w, remaining := n + 1 } → s.pins.rst = false →
    step s = .next { s with
      inFlight := some { word := w, remaining := n }, inputs := s.inputs.tail }

/-- An edge at which a ready block is given no command changes nothing. -/
def Obligations.IdleEdgeChangesNothing : Prop :=
  ∀ s : State, s.cmdReady = true → s.pins.cmd = none →
    step s = .next { s with inputs := s.inputs.tail }

/-- R185, R186: while `rst` is asserted the block is not ready; the edge leaves `ERR = 0`,
`RVALID = 0`, nothing in flight, a block that is ready as soon as `rst` is released, and this whatever
command was in flight and whatever stood at the command port: neither leaves any trace. Two clauses
are the model's choice: that ONE edge with `rst` asserted is enough (assumption log 9; R185 leaves the
pulse length open), and that the unspecified `RES` it leaves is the same free value whatever was in
flight (assumption log 2). -/
def Obligations.ResetDiscardsCommandInFlight : Prop :=
  ∀ (s : State) (f : Option InFlight) (c : Option HostCommand) (es : List Edge),
    (s.withInputs ({ rst := true, cmd := c } :: es)).cmdReady = false ∧
    ∃ t : State, step (s.withInputs ({ rst := true, cmd := c } :: es)) = .next t ∧
      t.err = 0b00#2 ∧ t.rvalid = false ∧ t.inFlight = none ∧ t.inputs = es ∧
      (t.pins.rst = false → t.cmdReady = true) ∧
      step ((s.withInFlight f).withInputs ({ rst := true, cmd := none } :: es)) = .next t

/-- R192: an accepted command completes whatever its operand, unless reset intervenes, and the block is
then ready for the next one. First from the edge of its acceptance, where the host's operand is its
own data or a valid `RES`, for every latency, 0 too; then from any state with the command in flight.
R192 promises a finite number of edges: that the number is `LAT(op) + 1` counting the accepting edge,
and `n + 1` for a record in flight with `n` edges left, is the model's choice (assumption log 4, 10;
the latency is free). -/
def Obligations.AcceptedCommandCompletes : Prop :=
  (∀ (s : State) (c : HostCommand) (d : Data),
    s.cmdReady = true → s.pins.cmd = some c →
    (c.operand = .data d ∨ (c.operand = .res ∧ s.rvalid = true ∧ s.res = d)) →
    (∀ e ∈ s.inputs.take (Config.latency c.op + 1), e.rst = false) →
    ∃ t : State, steps (Config.latency c.op + 1) s = .next t ∧
      exec (decode (c.op ++ d)) { s with inputs := s.inputs.drop (Config.latency c.op + 1) }
        = .next t ∧
      t.inFlight = none ∧ t.inputs = s.inputs.drop (Config.latency c.op + 1) ∧
      (t.pins.rst = false → t.cmdReady = true)) ∧
  (∀ (n : Nat) (s : State) (w : CmdWord),
    s.inFlight = some { word := w, remaining := n } →
    (∀ e ∈ s.inputs.take (n + 1), e.rst = false) →
    ∃ t : State, steps (n + 1) s = .next t ∧
      exec (decode w) { s with inFlight := none, inputs := s.inputs.drop (n + 1) } = .next t ∧
      t.inFlight = none ∧ t.inputs = s.inputs.drop (n + 1) ∧
      (t.pins.rst = false → t.cmdReady = true))

/-- A step faults exactly when the host has a command accepted whose operand is a `RES` that is not
valid; and no step is refused. R190 asks that a model fault or refuse such a host step: that it is a
fault, that it is raised at the acceptance only, and that nothing is refused is the model's choice
(assumption log 11). -/
def Obligations.StepFaultsOnlyOnInvalidRes : Prop :=
  ∀ s : State,
    (∀ f : Fault, step s = .fault f ↔
      f = .resNotValid ∧ s.cmdReady = true ∧ s.rvalid = false ∧
        ∃ op, s.pins.cmd = some { op := op, operand := .res }) ∧
    (∀ r : Refusal, step s ≠ .refused r)

/-- R174: a block whose host keeps its duty never becomes unusable. Where the breach of the duty stops
the model is its choice (assumption log 11). -/
def Obligations.BlockNeverStopsDutifulHost : Prop :=
  ∀ s : State, s.HostKeepsDuty → ∃ t : State, step s = .next t

/-- R77, R74: the operand form `RES` presents the content of `RES`, copied. -/
def Obligations.ResOperandIsContentOfRes : Prop :=
  ∀ (s : State) (op : Opcode) (es : List Edge), s.rvalid = true → s.inFlight = none →
    step (s.withInputs (Edge.present { op := op, operand := .res } :: es))
      = step (s.withInputs (Edge.present { op := op, operand := .data s.res } :: es))

/-! ### Reset -/

/-- R40: the state after reset. `cmd_ready` is 1 once `rst` is released and 0 while it is asserted.
`RES` is unspecified there, so the statement says of it only that the host may not use it: R190 asks
for a fault or a refusal, and that it is the fault `resNotValid` is the model's choice (assumption
log 11). -/
def Obligations.ResetValues : Prop :=
  State.reset.err = 0b00#2 ∧ State.reset.rvalid = false ∧ State.reset.status = 0b000#3 ∧
  State.reset.inFlight = none ∧ State.reset.cmdReady = true ∧
  (∀ (c : Option HostCommand) (es : List Edge),
    (State.reset.withInputs ({ rst := true, cmd := c } :: es)).cmdReady = false) ∧
  State.reset.readRes = .error .resNotValid

/-! ### Every command -/

/-- Every command completes in a next state, and nothing but `RES`, `ERR` and `RVALID` of the block is
changed (R93, R165, R174). -/
def Obligations.EveryCommandCompletes : Prop :=
  ∀ (i : Instr) (s : State), ∃ t : State, exec i s = .next t ∧
    t.inFlight = s.inFlight ∧ t.inputs = s.inputs

/-- R39, which the spec derives: what a command leaves in `ERR` and `RVALID`, and in `RES` when it is valid, depends on the
command alone: not on the registers before it, nor on anything else. -/
def Obligations.OutcomeDependsOnCommandAlone : Prop :=
  ∀ (i : Instr) (s s' t t' : State), exec i s = .next t → exec i s' = .next t' →
    t.err = t'.err ∧ t.rvalid = t'.rvalid ∧ (t.rvalid = true → t.res = t'.res)

/-- R161 to R163, R169: which commands can raise which error, and that `RVALID` is 1 exactly when there
was none. -/
def Obligations.ErrorsAndTheirCommands : Prop :=
  ∀ (i : Instr) (s t : State), exec i s = .next t →
    (t.err = 0b01#2 → (∃ c, i = .s2d c) ∨ ∃ cs, i = .decs cs) ∧
    (t.err = 0b10#2 ↔ i = .reserved0 ∨ i = .reserved7) ∧
    t.err ≠ 0b11#2 ∧ (t.rvalid = true ↔ t.err = 0b00#2)

/-- After an error `RES` holds a free value, and the next error draws another. That `RES` is one free
value for each draw is the model's choice (assumption log 2). -/
def Obligations.ErrorLeavesResFree : Prop :=
  ∀ (i : Instr) (s t : State), exec i s = .next t → t.rvalid = false →
    t.res = Config.unspecifiedRes s.draws ∧ t.draws = s.draws + 1

/-- Every step keeps `STATUS` at a legal value (R35). -/
def Obligations.StepKeepsStatusLegal : Prop :=
  ∀ s t : State, s.Legal → step s = .next t → t.Legal

/-- `STATUS` is legal after reset (R35). -/
def Obligations.ResetStatusLegal : Prop := State.reset.Legal

/-- The other four values of `STATUS` are unreachable, whatever the host drives (R35). -/
def Obligations.ReachableStatusLegal : Prop :=
  ∀ t : State, ReachedFromReset t →
    t.status ≠ 0b011#3 ∧ t.status ≠ 0b101#3 ∧ t.status ≠ 0b110#3 ∧ t.status ≠ 0b111#3

/-! ### The symbol table, `D2S` and `S2D` -/

/-- R51: the forward direction in its closed form. -/
def Obligations.TableForwardClosedForm : Prop :=
  ∀ i : Digit, (lutFwd i).toNat =
    if i.toNat ≤ 9 then 0x30 + i.toNat
    else if i.toNat ≤ 35 then 0x41 + (i.toNat - 10)
    else if i.toNat ≤ 61 then 0x61 + (i.toNat - 36)
    else if i.toNat = 62 then 0x5F
    else 0x24

/-- R52: the reverse direction, by its definition and in its closed form. -/
def Obligations.TableReverseClosedForm : Prop :=
  (∀ (c : CharCode) (i : Digit), lutRev c = some i ↔ c = lutFwd i) ∧
  (∀ c : CharCode, lutRev c =
    if 0x30 ≤ c.toNat ∧ c.toNat ≤ 0x39 then some (BitVec.ofNat 6 (c.toNat - 0x30))
    else if 0x41 ≤ c.toNat ∧ c.toNat ≤ 0x5A then some (BitVec.ofNat 6 (c.toNat - 0x41 + 10))
    else if 0x61 ≤ c.toNat ∧ c.toNat ≤ 0x7A then some (BitVec.ofNat 6 (c.toNat - 0x61 + 36))
    else if c.toNat = 0x5F then some 62#6
    else if c.toNat = 0x24 then some 63#6
    else none)

/-- R53: the table is a bijection between the digits and the 64 symbols. -/
def Obligations.TableIsBijection : Prop :=
  (∀ i : Digit, lutRev (lutFwd i) = some i) ∧
  (∀ (c : CharCode) (i : Digit), lutRev c = some i → lutFwd i = c) ∧
  (∀ i j : Digit, lutFwd i = lutFwd j → i = j)

/-- R28: the ports of unit `symbol_lut`. On a miss the statement says nothing of `rev_dig`. -/
def Obligations.SymbolLutPorts : Prop :=
  (∀ i : Digit, symbolLutFwd i = lutFwd i) ∧
  (∀ (c : CharCode) (d : Digit), lutRev c = some d →
    symbolLutRev c = { revHit := true, revDig := d }) ∧
  (∀ c : CharCode, lutRev c = none → (symbolLutRev c).revHit = false)

/-- R90: `D2S` on every digit. -/
def Obligations.D2sGivesSymbol : Prop :=
  (∀ data : Data, decode (0b001#3 ++ data) = .d2s (data.extractLsb' 0 6)) ∧
  (∀ (i : Digit) (s : State), exec (.d2s i) s =
    .next { s with res := (lutFwd i).setWidth 176, err := 0b00#2, rvalid := true })

/-- R91: `S2D` gives the digit of a symbol, and ends in `InvalidSymbol` on any other code. -/
def Obligations.S2dGivesDigitOrInvalidSymbol : Prop :=
  (∀ data : Data, decode (0b010#3 ++ data) = .s2d (data.extractLsb' 0 8)) ∧
  (∀ (d : Digit) (s : State), exec (.s2d (lutFwd d)) s =
    .next { s with res := d.setWidth 176, err := 0b00#2, rvalid := true }) ∧
  (∀ (c : CharCode) (s : State), (∀ d : Digit, lutFwd d ≠ c) →
    ∃ t : State, exec (.s2d c) s = .next t ∧ ErrorEntry 0b01#2 s t)

/-- The two commands are inverse to each other on the alphabet: R92, which the spec derives. -/
def Obligations.D2sAndS2dAreInverse : Prop :=
  (∀ (i : Digit) (s : State), ∃ t t' : State, exec (.d2s i) s = .next t ∧
    exec (.s2d (t.res.extractLsb' 0 8)) t = .next t' ∧
    t'.res = i.setWidth 176 ∧ t'.rvalid = true) ∧
  (∀ (c : CharCode) (d : Digit) (s : State), lutRev c = some d →
    ∃ t t' : State, exec (.s2d c) s = .next t ∧
      exec (.d2s (t.res.extractLsb' 0 6)) t = .next t' ∧
      t'.res = c.setWidth 176 ∧ t'.rvalid = true)

/-! ### The encoder -/

/-- R100: the 22 digits of `Enc`, group by group. -/
def Obligations.EncDigitsByGroup : Prop :=
  ∀ u : ByteVec,
    (digitAt (encVec u) 0).toNat = (byteAt u 0).toNat / 64 ∧
    (digitAt (encVec u) 1).toNat = (byteAt u 0).toNat % 64 ∧
    ∀ g j : Nat, 1 ≤ g → g ≤ 5 → j ≤ 3 →
      (digitAt (encVec u) (4 * g - 2 + j)).toNat =
        ((byteAt u (3 * g - 2)).toNat * 65536 + (byteAt u (3 * g - 1)).toNat * 256 +
          (byteAt u (3 * g)).toNat) / 64 ^ (3 - j) % 64

/-- `Enc` is the zero extension to 132 bits: R101, a sentence the spec derives from R100. -/
def Obligations.EncIsZeroExtension : Prop :=
  ∀ u : ByteVec, encVec u = u.setWidth 132 ∧ (encVec u).extractLsb' 128 4 = 0#4 ∧
    (encVec u).extractLsb' 0 128 = u

/-- The first digit is at most 3, `Enc` is injective, and its image is the canonical digit vectors:
R102, which the spec derives from R101. -/
def Obligations.EncImageIsCanonical : Prop :=
  (∀ u : ByteVec, (digitAt (encVec u) 0).toNat ≤ 3) ∧
  (∀ u v : ByteVec, encVec u = encVec v → u = v) ∧
  (∀ g : DigitVec, (∃ u : ByteVec, encVec u = g) ↔ g.extractLsb' 128 4 = 0#4)

/-- R103: `ENC` on every byte vector, with `Enc` in its closed form (R101, which the spec derives). -/
def Obligations.EncGivesDigits : Prop :=
  (∀ data : Data, decode (0b011#3 ++ data) = .enc (data.extractLsb' 0 128)) ∧
  (∀ (u : ByteVec) (s : State), exec (.enc u) s =
    .next { s with res := u.setWidth 176, err := 0b00#2, rvalid := true })

/-- R104: `ENCS` on every byte vector: 22 characters, each the symbol of its digit. -/
def Obligations.EncsGivesSymbols : Prop :=
  (∀ data : Data, decode (0b101#3 ++ data) = .encs (data.extractLsb' 0 128)) ∧
  (∀ (u : ByteVec) (s : State), ∃ r : CharVec,
    exec (.encs u) s = .next { s with res := r, err := 0b00#2, rvalid := true } ∧
    ∀ k < 22, charAt r k = lutFwd (digitAt (encVec u) k))

/-- R106, which the spec derives: every character of `ENCS`'s result is in the alphabet, `S2D` gives back the digit that `ENC`
has at its place, and the result is `ENC`'s with each digit looked up. -/
def Obligations.EncsStaysInAlphabet : Prop :=
  ∀ (u : ByteVec) (s : State) (k : Nat), k < 22 →
    ∃ (t t' t'' : State), exec (.encs u) s = .next t ∧ exec (.enc u) s = .next t' ∧
      charAt t.res k = lutFwd (digitAt (t'.res.extractLsb' 0 132) k) ∧
      (lutRev (charAt t.res k)).isSome = true ∧
      exec (.s2d (charAt t.res k)) t = .next t'' ∧ t''.rvalid = true ∧
      t''.res = (digitAt (t'.res.extractLsb' 0 132) k).setWidth 176

/-! ### The decoder -/

/-- R115: the 16 bytes of `Dec`, group by group, the first group cut to its low 8 bits. -/
def Obligations.DecBytesByGroup : Prop :=
  ∀ g : DigitVec,
    (byteAt (decVec g) 0).toNat =
      ((digitAt g 0).toNat * 64 + (digitAt g 1).toNat) % 256 ∧
    ∀ k : Nat, 1 ≤ k → k ≤ 5 →
      let d := (((digitAt g (4 * k - 2)).toNat * 64 + (digitAt g (4 * k - 1)).toNat) * 64 +
        (digitAt g (4 * k)).toNat) * 64 + (digitAt g (4 * k + 1)).toNat
      (byteAt (decVec g) (3 * k - 2)).toNat = d / 65536 % 256 ∧
      (byteAt (decVec g) (3 * k - 1)).toNat = d / 256 % 256 ∧
      (byteAt (decVec g) (3 * k)).toNat = d % 256

/-- `Dec` drops the four top bits and passes every other bit through: R116, a sentence the spec derives
from R115. -/
def Obligations.DecDropsTopFourBits : Prop :=
  ∀ g : DigitVec, decVec g = g.extractLsb' 0 128 ∧ (decVec g).toNat = g.toNat % 2 ^ 128

/-- The equivalent forms of "canonical", of a digit vector and of a compact string: R117, which the
spec derives. -/
def Obligations.CanonicalForms : Prop :=
  (∀ g : DigitVec,
    (canonicalDigits g ↔ (digitAt g 0).toNat * 64 + (digitAt g 1).toNat ≤ 255) ∧
    (canonicalDigits g ↔ (digitAt g 0).toNat ≤ 3) ∧
    (canonicalDigits g ↔ g.toNat < 2 ^ 128)) ∧
  (∀ (cs : CharVec) (g : DigitVec), (∀ k < 22, lutFwd (digitAt g k) = charAt cs k) →
    (canonicalDigits g ↔
      charAt cs 0 = 0x30#8 ∨ charAt cs 0 = 0x31#8 ∨ charAt cs 0 = 0x32#8 ∨ charAt cs 0 = 0x33#8))

/-- The round-trip laws of `Enc` and `Dec`: R118, which the spec derives. -/
def Obligations.RoundTripLaws : Prop :=
  (∀ u : ByteVec, decVec (encVec u) = u) ∧
  (∀ g : DigitVec, encVec (decVec g) = g ↔ canonicalDigits g) ∧
  (∀ g : DigitVec, encVec (decVec g) = 0#4 ++ g.extractLsb' 0 128 ∧
    (digitAt (encVec (decVec g)) 0).toNat = (digitAt g 0).toNat % 4 ∧
    ∀ k, 1 ≤ k → k < 22 → digitAt (encVec (decVec g)) k = digitAt g k) ∧
  (∀ (u : ByteVec) (x : BitVec 4), decVec (x ++ u) = u ∧ (canonicalDigits (x ++ u) ↔ x = 0#4))

/-- R119: `DEC` on every digit vector, canonical or not, with `Dec` in its closed form (R116, which the
spec derives). -/
def Obligations.DecGivesBytes : Prop :=
  (∀ data : Data, decode (0b100#3 ++ data) = .dec (data.extractLsb' 0 132)) ∧
  (∀ (g : DigitVec) (s : State), exec (.dec g) s =
    .next { s with
      res := (g.extractLsb' 0 128).setWidth 176, err := 0b00#2, rvalid := true })

/-- R120: `DECS` decodes 22 symbols, and ends in `InvalidSymbol` if one character is outside the
alphabet, wherever it stands. -/
def Obligations.DecsGivesBytesOrInvalidSymbol : Prop :=
  (∀ data : Data, decode (0b110#3 ++ data) = .decs data) ∧
  (∀ (cs : CharVec) (g : DigitVec) (s : State),
    (∀ k < 22, lutFwd (digitAt g k) = charAt cs k) →
    exec (.decs cs) s =
      .next { s with res := (decVec g).setWidth 176, err := 0b00#2, rvalid := true }) ∧
  (∀ (cs : CharVec) (k : Nat) (s : State), k < 22 → (∀ d : Digit, lutFwd d ≠ charAt cs k) →
    ∃ t : State, exec (.decs cs) s = .next t ∧ ErrorEntry 0b01#2 s t)

/-- R121: `DECS` is all or nothing: it delivers all 16 bytes, of a digit vector whose symbols are all
the 22 characters, or it ends in the error. -/
def Obligations.DecsIsAllOrNothing : Prop :=
  ∀ (cs : CharVec) (s : State), ∃ t : State, exec (.decs cs) s = .next t ∧
    ((t.rvalid = true ∧ ∃ g : DigitVec, (∀ k < 22, lutFwd (digitAt g k) = charAt cs k) ∧
        t.res = (decVec g).setWidth 176) ∨
      (ErrorEntry 0b01#2 s t ∧ ∃ k < 22, ∀ d : Digit, lutFwd d ≠ charAt cs k))

/-- R57: groups do not interact. A digit depends on the bytes of its own group only, and a byte
recovered by the decoder on the digits of its own group only. -/
def Obligations.GroupsDoNotInteract : Prop :=
  (∀ u v : ByteVec, byteAt u 0 = byteAt v 0 →
    ∀ k < 2, digitAt (encVec u) k = digitAt (encVec v) k) ∧
  (∀ (u v : ByteVec) (g : Nat), 1 ≤ g → g ≤ 5 →
    (∀ j < 3, byteAt u (3 * g - 2 + j) = byteAt v (3 * g - 2 + j)) →
    ∀ j < 4, digitAt (encVec u) (4 * g - 2 + j) = digitAt (encVec v) (4 * g - 2 + j)) ∧
  (∀ a b : DigitVec, (∀ k < 2, digitAt a k = digitAt b k) →
    byteAt (decVec a) 0 = byteAt (decVec b) 0) ∧
  (∀ (a b : DigitVec) (g : Nat), 1 ≤ g → g ≤ 5 →
    (∀ j < 4, digitAt a (4 * g - 2 + j) = digitAt b (4 * g - 2 + j)) →
    ∀ j < 3, byteAt (decVec a) (3 * g - 2 + j) = byteAt (decVec b) (3 * g - 2 + j))

/-- The first clause of the source's round trip at the level of the commands: `ENCS U`, then
`DECS RES`, gives `U` back (R122; E3). -/
def Obligations.DecsUndoesEncs : Prop :=
  ∀ (u : ByteVec) (s : State), ∃ t t' : State, exec (.encs u) s = .next t ∧
    exec (.decs t.res) t = .next t' ∧
    t'.res = u.setWidth 176 ∧ t'.err = 0b00#2 ∧ t'.rvalid = true

/-- `DECS S`, then `ENCS RES`, gives `S` back if and only if it is canonical; otherwise only the first
character changes, to the symbol of its digit modulo 4 (R122; 90_conflicts.md C2). -/
def Obligations.EncsAfterDecsCanonicalises : Prop :=
  ∀ (cs : CharVec) (g : DigitVec) (s : State), (∀ k < 22, lutFwd (digitAt g k) = charAt cs k) →
    ∃ t t' : State, exec (.decs cs) s = .next t ∧ t.rvalid = true ∧
      exec (.encs (t.res.extractLsb' 0 128)) t = .next t' ∧ t'.rvalid = true ∧
      (t'.res = cs ↔ canonicalDigits g) ∧
      charAt t'.res 0 = lutFwd (BitVec.ofNat 6 ((digitAt g 0).toNat % 4)) ∧
      ∀ k, 1 ≤ k → k < 22 → charAt t'.res k = charAt cs k

/-! ### The reserved opcodes -/

/-- R163, R75: the reserved opcodes end in `IllegalOp`, whatever `data` holds. -/
def Obligations.ReservedOpcodesAreIllegal : Prop :=
  (∀ data : Data, decode (0b000#3 ++ data) = .reserved0 ∧
    decode (0b111#3 ++ data) = .reserved7) ∧
  (∀ s : State, ∃ t : State, exec .reserved0 s = .next t ∧ ErrorEntry 0b10#2 s t) ∧
  (∀ s : State, ∃ t : State, exec .reserved7 s = .next t ∧ ErrorEntry 0b10#2 s t)

/-! ### The host's text layer -/

/-- One interaction of the host with the block has the command executed, after the one that was in
flight (R146). The latency is free (assumption log 4); how the host's text layer waits is the model's
choice (assumption log 19). -/
def Obligations.IssueRunsOneCommand : Prop :=
  (∀ (s : State) (op : Opcode) (d : Data), s.inFlight = none →
    issue { op := op, operand := .data d } s = exec (decode (op ++ d)) s) ∧
  (∀ (s t : State) (f : InFlight) (op : Opcode) (d : Data), s.inFlight = some f →
    exec (decode f.word) { s with inFlight := none } = .next t →
    issue { op := op, operand := .data d } s = exec (decode (op ++ d)) t)

/-- R137: `hex_format` and `hex_parse` undo each other, and a formatted string is 32 characters over
`[0-9a-f]`. -/
def Obligations.HexFormatAndParseAgree : Prop :=
  (∀ (u : ByteVec) (b : Bool), hexParse b (hexFormat u) = .ok u ∧ (hexFormat u).length = 32 ∧
    ∀ c ∈ hexFormat u, (0x30 ≤ c.toNat ∧ c.toNat ≤ 0x39) ∨ (0x61 ≤ c.toNat ∧ c.toNat ≤ 0x66)) ∧
  (∀ (h : List Char) (b : Bool), h.length = 32 →
    (∀ c ∈ h, (0x30 ≤ c.toNat ∧ c.toNat ≤ 0x39) ∨ (0x61 ≤ c.toNat ∧ c.toNat ≤ 0x66)) →
    ∃ u : ByteVec, hexParse b h = .ok u ∧ hexFormat u = h)

/-- R136: which strings `hex_parse` reads, and as which bytes; and that it refuses every other: one that
is not 32 characters long, and one with a character that is no hex digit. `A` to `F` are digits of
value 10 to 15 if the parser accepts them and no digits if it does not. -/
def Obligations.HexParseReadsOrRefuses : Prop :=
  ∀ (b : Bool) (h : List Char),
    (∀ u : ByteVec, hexParse b h = .ok u ↔ SpellsBytes b h u) ∧
    (hexParse b h = .error .invalidHexInput ↔ MalformedHex b h)

/-- R138: `compress` on malformed input issues no command; on 32 hex digits it gives the 22 symbols of
the encoded bytes. Whether upper-case digits are accepted is free (assumption log 5); how the command
is issued is the model's choice (assumption log 19). -/
def Obligations.CompressGivesSymbols : Prop :=
  (∀ (h : List Char) (s : State), MalformedHex Config.hexAcceptUpper h →
    compress h s = .next (s, .error .invalidHexInput)) ∧
  (∀ (h : List Char) (u : ByteVec) (s : State), SpellsBytes Config.hexAcceptUpper h u →
    s.inFlight = none →
    ∃ (t : State) (out : List Char), compress h s = .next (t, .ok out) ∧
      SpellsDigits out (encVec u) ∧ t.err = 0b00#2 ∧ t.rvalid = true)

/-- R139: `expand` on 22 symbols, canonical or not, gives the hex string of the decoded bytes; the block
is left with the completed `DECS`. How the command is issued is the model's choice (assumption
log 19). -/
def Obligations.ExpandGivesDecodedBytes : Prop :=
  ∀ (c : List Char) (g : DigitVec) (s : State), SpellsDigits c g → s.inFlight = none →
    expand c s = .next
      ({ s with res := (decVec g).setWidth 176, err := 0b00#2, rvalid := true },
        .ok (hexFormat (decVec g)))

/-- The headline of the source: `expand(compress(h)) = h` for every 32-digit hex string, through the
block's commands and registers (95_test_vectors.md E3). -/
def Obligations.ExpandUndoesCompress : Prop :=
  ∀ (u : ByteVec) (s : State), s.inFlight = none →
    ∃ (t t' : State) (out : List Char), compress (hexFormat u) s = .next (t, .ok out) ∧
      out.length = 22 ∧ expand out t = .next (t', .ok (hexFormat u))

/-- R139: `expand` fails with the length error before any command is issued, and with the symbol error
of the block if a character is outside the alphabet. For a character without an ASCII code, that the
block has entered `InvalidSymbol` is the model's choice (assumption log 8): R139 also lets the host fail
the string itself and issue nothing. -/
def Obligations.ExpandErrors : Prop :=
  (∀ (c : List Char) (s : State), c.length ≠ 22 →
    expand c s = .next (s, .error .invalidLength)) ∧
  (∀ (c : List Char) (x : Char) (s : State), c.length = 22 → s.inFlight = none → x ∈ c →
    (∀ d : Digit, (lutFwd d).toNat ≠ x.toNat) →
    ∃ t : State, expand c s = .next (t, .error .invalidSymbol) ∧ ErrorEntry 0b01#2 s t)

/-- R141: the hyphen formatter. -/
def Obligations.SplitInsertsHyphens : Prop :=
  (∀ a b c d e : List Char, a.length = 8 → b.length = 4 → c.length = 4 → d.length = 4 →
    e.length = 12 →
    split (a ++ b ++ c ++ d ++ e)
      = .ok (a ++ ['-'] ++ b ++ ['-'] ++ c ++ ['-'] ++ d ++ ['-'] ++ e)) ∧
  (∀ h out : List Char, split h = .ok out → out.length = 36) ∧
  (∀ h : List Char, h.length ≠ 32 → split h = .error .invalidLength)

/-- Stripping takes out the hyphens that `split` puts in (R142; 90_conflicts.md C8). -/
def Obligations.StripUndoesSplit : Prop :=
  ∀ h out : List Char, split h = .ok out → '-' ∉ h → stripHyphens out = h
end

