-- ==== Sys2Proof/Laws/Operands.lean ====
section
/-!
SUPPORT. The sequences inside the vectors: their lengths, their elements, and the value of a
concatenation.
-/

namespace Sys2Proof.Machine

@[simp] theorem length_bytesOf (u : ByteVec) : (bytesOf u).length = 16 := by simp [bytesOf]

@[simp] theorem length_digitsOf (g : DigitVec) : (digitsOf g).length = 22 := by simp [digitsOf]

@[simp] theorem length_charsOf (cs : CharVec) : (charsOf cs).length = 22 := by simp [charsOf]

theorem getElem?_digitsOf (g : DigitVec) {k : Nat} (h : k < 22) :
    (digitsOf g)[k]? = some (digitAt g k) := by
  simp [digitsOf, h]

theorem getElem?_charsOf (cs : CharVec) {k : Nat} (h : k < 22) :
    (charsOf cs)[k]? = some (charAt cs k) := by
  simp [charsOf, h]

theorem getElem?_bytesOf (u : ByteVec) {i : Nat} (h : i < 16) :
    (bytesOf u)[i]? = some (byteAt u i) := by
  simp [bytesOf, h]

/-- An element of a vector as a number (00_scope.md R7: `(v >> lo) % 2^(hi-lo+1)`). -/
theorem byteAt_toNat (u : ByteVec) (i : Nat) :
    (byteAt u i).toNat = u.toNat / 2 ^ (120 - 8 * i) % 256 := by
  simp [byteAt, Nat.shiftRight_eq_div_pow]

theorem digitAt_toNat (g : DigitVec) (k : Nat) :
    (digitAt g k).toNat = g.toNat / 2 ^ (126 - 6 * k) % 64 := by
  simp [digitAt, Nat.shiftRight_eq_div_pow]

theorem charAt_toNat (cs : CharVec) (k : Nat) :
    (charAt cs k).toNat = cs.toNat / 2 ^ (168 - 8 * k) % 256 := by
  simp [charAt, Nat.shiftRight_eq_div_pow]

/-- A concatenation is built from the front. -/
theorem foldl_concat {w : Nat} (xs : List (BitVec w)) (a : Nat) :
    xs.foldl (fun acc x => acc * 2 ^ w + x.toNat) a
      = a * 2 ^ (w * xs.length) + concatValue xs := by
  induction xs generalizing a with
  | nil => simp [concatValue]
  | cons x xs ih =>
    have h0 := ih (0 * 2 ^ w + x.toNat)
    have h1 := ih (a * 2 ^ w + x.toNat)
    simp only [concatValue, List.foldl_cons, List.length_cons] at *
    rw [h1, h0, Nat.mul_add w, Nat.pow_add]
    ring

@[simp] theorem concatValue_nil {w : Nat} : concatValue ([] : List (BitVec w)) = 0 := rfl

/-- The value of `x ++ rest`, with `x` in the more significant place (00_scope.md R7). -/
theorem concatValue_cons {w : Nat} (x : BitVec w) (xs : List (BitVec w)) :
    concatValue (x :: xs) = x.toNat * 2 ^ (w * xs.length) + concatValue xs := by
  have h := foldl_concat xs (0 * 2 ^ w + x.toNat)
  simpa [concatValue] using h

/-- A concatenation fits the sum of its widths. -/
theorem concatValue_lt {w : Nat} (xs : List (BitVec w)) : concatValue xs < 2 ^ (w * xs.length) := by
  induction xs with
  | nil => simp
  | cons x xs ih =>
    have hx := x.isLt
    have hp : 0 < 2 ^ (w * xs.length) := Nat.pow_pos (by decide)
    rw [concatValue_cons, List.length_cons, Nat.mul_succ, Nat.add_comm (w * _), Nat.pow_add]
    calc x.toNat * 2 ^ (w * xs.length) + concatValue xs
        < x.toNat * 2 ^ (w * xs.length) + 2 ^ (w * xs.length) := by omega
      _ = (x.toNat + 1) * 2 ^ (w * xs.length) := by ring
      _ ≤ 2 ^ w * 2 ^ (w * xs.length) := Nat.mul_le_mul_right _ hx

/-- The `k`th element from the front, taken out of a concatenation's value. -/
theorem concatValue_getElem {w : Nat} (xs : List (BitVec w)) (k : Nat) (h : k < xs.length) :
    concatValue xs / 2 ^ (w * (xs.length - 1 - k)) % 2 ^ w = xs[k].toNat := by
  induction xs generalizing k with
  | nil => simp at h
  | cons x xs ih =>
    have hv := concatValue_lt xs
    have hp : 0 < 2 ^ (w * xs.length) := Nat.pow_pos (by decide)
    rw [concatValue_cons]
    cases k with
    | zero =>
      simp only [List.length_cons, Nat.add_sub_cancel, Nat.sub_zero, List.getElem_cons_zero]
      rw [Nat.mul_comm, Nat.mul_add_div hp, Nat.div_eq_of_lt hv, Nat.add_zero,
        Nat.mod_eq_of_lt x.isLt]
    | succ k =>
      have hk : k < xs.length := by simpa using h
      have e : w * xs.length = w * (xs.length - 1 - k) + w * (k + 1) := by
        rw [← Nat.mul_add]; congr 1; omega
      have e' : (x :: xs).length - 1 - (k + 1) = xs.length - 1 - k := by
        simp only [List.length_cons]; omega
      have hq : 0 < 2 ^ (w * (xs.length - 1 - k)) := Nat.pow_pos (by decide)
      rw [e', List.getElem_cons_succ, ← ih k hk, e, Nat.pow_add, Nat.mul_left_comm,
        Nat.mul_add_div hq, Nat.mul_succ w, Nat.pow_add, ← Nat.mul_assoc,
        Nat.mul_comm _ (2 ^ w), Nat.mul_add_mod]

/-- An element of a packed character sequence. -/
theorem charAt_packChars (cs : List CharCode) (h : cs.length = 22) (k : Nat) (hk : k < 22) :
    charAt (packChars cs) k = cs[k]'(by omega) := by
  have hlt := concatValue_lt cs
  have hget := concatValue_getElem cs k (by omega)
  have e : 168 - 8 * k = 8 * (cs.length - 1 - k) := by omega
  rw [h] at hlt
  apply BitVec.eq_of_toNat_eq
  rw [charAt_toNat, packChars, BitVec.toNat_ofNat, Nat.mod_eq_of_lt hlt, e]
  exact hget

/-- An element of a packed digit sequence. -/
theorem digitAt_packDigits (ds : List Digit) (h : ds.length = 22) (k : Nat) (hk : k < 22) :
    digitAt (packDigits ds) k = ds[k]'(by omega) := by
  have hlt := concatValue_lt ds
  have hget := concatValue_getElem ds k (by omega)
  have e : 126 - 6 * k = 6 * (ds.length - 1 - k) := by omega
  rw [h] at hlt
  apply BitVec.eq_of_toNat_eq
  rw [digitAt_toNat, packDigits, BitVec.toNat_ofNat, Nat.mod_eq_of_lt hlt, e]
  exact hget

/-- An element of a packed byte sequence. -/
theorem byteAt_packBytes (bs : List Byte) (h : bs.length = 16) (i : Nat) (hi : i < 16) :
    byteAt (packBytes bs) i = bs[i]'(by omega) := by
  have hlt := concatValue_lt bs
  have hget := concatValue_getElem bs i (by omega)
  have e : 120 - 8 * i = 8 * (bs.length - 1 - i) := by omega
  rw [h] at hlt
  apply BitVec.eq_of_toNat_eq
  rw [byteAt_toNat, packBytes, BitVec.toNat_ofNat, Nat.mod_eq_of_lt hlt, e]
  exact hget

/-- A byte vector is its 16 bytes. -/
theorem byteVec_ext (a b : ByteVec) (h : ∀ i < 16, byteAt a i = byteAt b i) : a = b := by
  apply BitVec.eq_of_getLsbD_eq
  intro n hn
  have hk := congrArg (fun x => x.getLsbD (n % 8)) (h (15 - n / 8) (by omega))
  have e : 120 - 8 * (15 - n / 8) + n % 8 = n := by omega
  simpa [byteAt, BitVec.getLsbD_extractLsb', e, Nat.mod_lt] using hk

/-- A digit vector is its 22 digits. -/
theorem digitVec_ext (a b : DigitVec) (h : ∀ k < 22, digitAt a k = digitAt b k) : a = b := by
  apply BitVec.eq_of_getLsbD_eq
  intro n hn
  have hk := congrArg (fun x => x.getLsbD (n % 6)) (h (21 - n / 6) (by omega))
  have e : 126 - 6 * (21 - n / 6) + n % 6 = n := by omega
  simpa [digitAt, BitVec.getLsbD_extractLsb', e, Nat.mod_lt] using hk

/-- A character vector is its 22 codes. -/
theorem charVec_ext (a b : CharVec) (h : ∀ k < 22, charAt a k = charAt b k) : a = b := by
  apply BitVec.eq_of_getLsbD_eq
  intro n hn
  have hk := congrArg (fun x => x.getLsbD (n % 8)) (h (21 - n / 8) (by omega))
  have e : 168 - 8 * (21 - n / 8) + n % 8 = n := by omega
  simpa [charAt, BitVec.getLsbD_extractLsb', e, Nat.mod_lt] using hk

end Sys2Proof.Machine
end

