-- ==== Sys2Proof/Laws/State.lean ====
section
/-!
SUPPORT. One lemma per field of the state and per update of it, so that no proof unfolds an update.
-/

namespace Sys2Proof.Machine

/-! ### `completeOk` -/

@[simp] theorem State.completeOk_res {w : Nat} (s : State) (v : BitVec w) :
    (s.completeOk v).res = v.setWidth 176 := rfl

@[simp] theorem State.completeOk_err {w : Nat} (s : State) (v : BitVec w) :
    (s.completeOk v).err = 0b00#2 := rfl

@[simp] theorem State.completeOk_rvalid {w : Nat} (s : State) (v : BitVec w) :
    (s.completeOk v).rvalid = true := rfl

@[simp] theorem State.completeOk_inFlight {w : Nat} (s : State) (v : BitVec w) :
    (s.completeOk v).inFlight = s.inFlight := rfl

@[simp] theorem State.completeOk_inputs {w : Nat} (s : State) (v : BitVec w) :
    (s.completeOk v).inputs = s.inputs := rfl

@[simp] theorem State.completeOk_draws {w : Nat} (s : State) (v : BitVec w) :
    (s.completeOk v).draws = s.draws := rfl

/-! ### `raiseError` -/

@[simp] theorem State.raiseError_res (s : State) (e : ErrorCause) :
    (s.raiseError e).res = Config.unspecifiedRes s.draws := rfl

@[simp] theorem State.raiseError_err (s : State) (e : ErrorCause) :
    (s.raiseError e).err = e.code := rfl

@[simp] theorem State.raiseError_rvalid (s : State) (e : ErrorCause) :
    (s.raiseError e).rvalid = false := rfl

@[simp] theorem State.raiseError_inFlight (s : State) (e : ErrorCause) :
    (s.raiseError e).inFlight = s.inFlight := rfl

@[simp] theorem State.raiseError_inputs (s : State) (e : ErrorCause) :
    (s.raiseError e).inputs = s.inputs := rfl

@[simp] theorem State.raiseError_draws (s : State) (e : ErrorCause) :
    (s.raiseError e).draws = s.draws + 1 := rfl

/-! ### `applyReset` -/

@[simp] theorem State.applyReset_res (s : State) :
    (s.applyReset).res = Config.unspecifiedRes s.draws := rfl

@[simp] theorem State.applyReset_err (s : State) :
    (s.applyReset).err = 0b00#2 := rfl

@[simp] theorem State.applyReset_rvalid (s : State) :
    (s.applyReset).rvalid = false := rfl

@[simp] theorem State.applyReset_inFlight (s : State) :
    (s.applyReset).inFlight = none := rfl

@[simp] theorem State.applyReset_inputs (s : State) :
    (s.applyReset).inputs = s.inputs := rfl

@[simp] theorem State.applyReset_draws (s : State) :
    (s.applyReset).draws = s.draws + 1 := rfl

/-! ### `popEdge` -/

@[simp] theorem State.popEdge_res (s : State) :
    (s.popEdge).res = s.res := rfl

@[simp] theorem State.popEdge_err (s : State) :
    (s.popEdge).err = s.err := rfl

@[simp] theorem State.popEdge_rvalid (s : State) :
    (s.popEdge).rvalid = s.rvalid := rfl

@[simp] theorem State.popEdge_inFlight (s : State) :
    (s.popEdge).inFlight = s.inFlight := rfl

@[simp] theorem State.popEdge_inputs (s : State) :
    (s.popEdge).inputs = s.inputs.tail := rfl

@[simp] theorem State.popEdge_draws (s : State) :
    (s.popEdge).draws = s.draws := rfl

/-! ### `withInFlight` -/

@[simp] theorem State.withInFlight_res (s : State) (f : Option InFlight) :
    (s.withInFlight f).res = s.res := rfl

@[simp] theorem State.withInFlight_err (s : State) (f : Option InFlight) :
    (s.withInFlight f).err = s.err := rfl

@[simp] theorem State.withInFlight_rvalid (s : State) (f : Option InFlight) :
    (s.withInFlight f).rvalid = s.rvalid := rfl

@[simp] theorem State.withInFlight_inFlight (s : State) (f : Option InFlight) :
    (s.withInFlight f).inFlight = f := rfl

@[simp] theorem State.withInFlight_inputs (s : State) (f : Option InFlight) :
    (s.withInFlight f).inputs = s.inputs := rfl

@[simp] theorem State.withInFlight_draws (s : State) (f : Option InFlight) :
    (s.withInFlight f).draws = s.draws := rfl

/-! ### `withInputs` -/

@[simp] theorem State.withInputs_res (s : State) (es : List Edge) :
    (s.withInputs es).res = s.res := rfl

@[simp] theorem State.withInputs_err (s : State) (es : List Edge) :
    (s.withInputs es).err = s.err := rfl

@[simp] theorem State.withInputs_rvalid (s : State) (es : List Edge) :
    (s.withInputs es).rvalid = s.rvalid := rfl

@[simp] theorem State.withInputs_inFlight (s : State) (es : List Edge) :
    (s.withInputs es).inFlight = s.inFlight := rfl

@[simp] theorem State.withInputs_inputs (s : State) (es : List Edge) :
    (s.withInputs es).inputs = es := rfl

@[simp] theorem State.withInputs_draws (s : State) (es : List Edge) :
    (s.withInputs es).draws = s.draws := rfl

/-! ### The error codes, `STATUS` and the read of `RES` -/

@[simp] theorem ErrorCause.code_invalidSymbol : ErrorCause.invalidSymbol.code = 0b01#2 := rfl

@[simp] theorem ErrorCause.code_illegalOp : ErrorCause.illegalOp.code = 0b10#2 := rfl

/-- `RES` can be read exactly when `RVALID = 1`. -/
theorem State.readRes_eq_ok_iff (s : State) (r : Data) :
    s.readRes = .ok r ↔ s.rvalid = true ∧ s.res = r := by
  cases h : s.rvalid <;> simp [State.readRes, h]

/-- The one fault of a read of `RES`. -/
theorem State.readRes_eq_error_iff (s : State) (f : Fault) :
    s.readRes = .error f ↔ s.rvalid = false ∧ f = .resNotValid := by
  cases h : s.rvalid <;> simp [State.readRes, h, eq_comm]

/-- A good completion makes its result readable. -/
@[simp] theorem State.readRes_completeOk {w : Nat} (s : State) (v : BitVec w) :
    (s.completeOk v).readRes = .ok (v.setWidth 176) := rfl

/-- The inputs at the coming edge, once the host drives these edges. -/
@[simp] theorem State.pins_withInputs_cons (s : State) (e : Edge) (es : List Edge) :
    (s.withInputs (e :: es)).pins = e := rfl

@[simp] theorem State.pins_withInputs_nil (s : State) : (s.withInputs []).pins = Edge.idle := rfl

/-- `STATUS` as a function of the two registers it shows. -/
theorem State.status_congr {s t : State} (h : s.err = t.err) (h' : s.rvalid = t.rvalid) :
    s.status = t.status := by
  simp only [State.status, h, h']

end Sys2Proof.Machine
end

