-- ==== Sys2Proof/Laws/Exec.lean ====
section
/-!
SUPPORT. What the shared operations of the meanings give, and what a command can do.
-/

namespace Sys2Proof.Machine

theorem length_symbolTable : symbolTable.length = 64 := rfl

/-- The reverse direction of a sequence succeeds with the list of all its digits. -/
theorem lutRevAll_eq_some_iff (cs : List CharCode) (ds : List Digit) :
    lutRevAll cs = some ds ↔ cs.map lutRev = ds.map some := by
  induction cs generalizing ds with
  | nil => cases ds <;> simp [lutRevAll]
  | cons c cs ih =>
    cases ds with
    | nil => cases h : lutRev c <;> cases h' : lutRevAll cs <;> simp [lutRevAll, h, h']
    | cons d ds =>
      rw [List.map_cons, List.map_cons, List.cons_eq_cons, ← ih]
      cases h : lutRev c <;> cases h' : lutRevAll cs <;> simp [lutRevAll, h, h']

/-- The reverse direction of a sequence misses exactly when one of its codes does. -/
theorem lutRevAll_eq_none_iff (cs : List CharCode) :
    lutRevAll cs = none ↔ ∃ c ∈ cs, lutRev c = none := by
  induction cs with
  | nil => simp [lutRevAll]
  | cons c cs ih =>
    cases h : lutRev c <;> cases h' : lutRevAll cs <;> simp_all [lutRevAll]

/-- `S2D` completes as its lookup does. -/
theorem execS2d_cases (c : CharCode) (s : State) :
    (∃ d, lutRev c = some d ∧ execS2d c s = .next (s.completeOk d)) ∨
      (lutRev c = none ∧ execS2d c s = .next (s.raiseError .invalidSymbol)) := by
  cases h : lutRev c <;> simp [execS2d, h]

/-- `DECS` completes as its 22 lookups do. -/
theorem execDecs_cases (cs : CharVec) (s : State) :
    (∃ ds, lutRevAll (charsOf cs) = some ds ∧
        execDecs cs s = .next (s.completeOk (decVec (packDigits ds)))) ∨
      (lutRevAll (charsOf cs) = none ∧
        execDecs cs s = .next (s.raiseError .invalidSymbol)) := by
  cases h : lutRevAll (charsOf cs) <;> simp [execDecs, h]

/-- What a command can do: it completes with a result or with an error, and nothing else. -/
theorem exec_cases (i : Instr) (s : State) :
    (∃ (w : Nat) (v : BitVec w), exec i s = .next (s.completeOk v)) ∨
      ∃ e, exec i s = .next (s.raiseError e) := by
  cases i with
  | reserved0 => exact .inr ⟨.illegalOp, rfl⟩
  | d2s d => exact .inl ⟨_, lutFwd d, rfl⟩
  | s2d c =>
    obtain ⟨d, -, h⟩ | ⟨-, h⟩ := execS2d_cases c s
    · exact .inl ⟨_, d, h⟩
    · exact .inr ⟨_, h⟩
  | enc u => exact .inl ⟨_, encVec u, rfl⟩
  | dec g => exact .inl ⟨_, decVec g, rfl⟩
  | encs u => exact .inl ⟨_, packChars ((digitsOf (encVec u)).map lutFwd), rfl⟩
  | decs cs =>
    obtain ⟨ds, -, h⟩ | ⟨-, h⟩ := execDecs_cases cs s
    · exact .inl ⟨_, decVec (packDigits ds), h⟩
    · exact .inr ⟨_, h⟩
  | reserved7 => exact .inr ⟨.illegalOp, rfl⟩

end Sys2Proof.Machine
end

