-- ==== Sys2Proof/Laws/Groups.lean ====
section
/-!
SUPPORT. The groups of bytes and digits (20_memory.md R57): what a group is worth as a number, and how
many elements the encoder and the decoder produce.
-/

namespace Sys2Proof.Machine

/-- The three shifted bytes occupy disjoint bits, so `|` is `+` (00_scope.md R10). -/
theorem groupValue_eq_add (a b c : Byte) :
    groupValue a b c = a.toNat * 65536 + b.toNat * 256 + c.toNat := by
  have hb := b.isLt
  have hc := c.isLt
  unfold groupValue
  rw [Nat.or_assoc, ← Nat.shiftLeft_add_eq_or_of_lt (a := b.toNat) (i := 8) (by omega),
    ← Nat.shiftLeft_add_eq_or_of_lt (i := 16) (by rw [Nat.shiftLeft_eq]; omega)]
  simp only [Nat.shiftLeft_eq]
  omega

@[simp] theorem length_encDigits (u : ByteVec) : (encDigits u).length = 22 := by
  simp [encDigits, encGroup0, encGroup]

@[simp] theorem length_decBytes (g : DigitVec) : (decBytes g).length = 16 := by
  simp [decBytes, decGroup0, decGroup]

/-- The digits of `Enc` are the digits the encoder's steps produce. -/
theorem digitAt_encVec (u : ByteVec) (k : Nat) (h : k < 22) :
    digitAt (encVec u) k = (encDigits u)[k]'(by rw [length_encDigits]; exact h) :=
  digitAt_packDigits _ (length_encDigits u) k h

/-- The bytes of `Dec` are the bytes the decoder's steps produce. -/
theorem byteAt_decVec (g : DigitVec) (i : Nat) (h : i < 16) :
    byteAt (decVec g) i = (decBytes g)[i]'(by rw [length_decBytes]; exact h) :=
  byteAt_packBytes _ (length_decBytes g) i h

/-- The three bytes of group `g` are 24 consecutive bits of `U` (20_memory.md R57). -/
theorem bytesOfGroup_toNat (u : ByteVec) (g : Nat) (h1 : 1 ≤ g) (h5 : g ≤ 5) :
    (byteAt u (3 * g - 2)).toNat * 65536 + (byteAt u (3 * g - 1)).toNat * 256 +
      (byteAt u (3 * g)).toNat = u.toNat / 2 ^ (120 - 24 * g) % 2 ^ 24 := by
  have e1 : 120 - 8 * (3 * g - 2) = 120 - 24 * g + 16 := by omega
  have e2 : 120 - 8 * (3 * g - 1) = 120 - 24 * g + 8 := by omega
  have e3 : 120 - 8 * (3 * g) = 120 - 24 * g := by omega
  simp only [byteAt_toNat, e1, e2, e3, Nat.pow_add, ← Nat.div_div_eq_div_mul]
  omega

/-- The four digits of group `g` are 24 consecutive bits of `G` (20_memory.md R57). -/
theorem digitsOfGroup_toNat (x : DigitVec) (g : Nat) (h1 : 1 ≤ g) (h5 : g ≤ 5) :
    (((digitAt x (4 * g - 2)).toNat * 64 + (digitAt x (4 * g - 1)).toNat) * 64 +
      (digitAt x (4 * g)).toNat) * 64 + (digitAt x (4 * g + 1)).toNat
      = x.toNat / 2 ^ (120 - 24 * g) % 2 ^ 24 := by
  have e1 : 126 - 6 * (4 * g - 2) = 120 - 24 * g + 18 := by omega
  have e2 : 126 - 6 * (4 * g - 1) = 120 - 24 * g + 12 := by omega
  have e3 : 126 - 6 * (4 * g) = 120 - 24 * g + 6 := by omega
  have e4 : 126 - 6 * (4 * g + 1) = 120 - 24 * g := by omega
  simp only [digitAt_toNat, e1, e2, e3, e4, Nat.pow_add, ← Nat.div_div_eq_div_mul]
  omega

end Sys2Proof.Machine
end

