-- ==== Sys2Proof/Laws/HostText.lean ====
section
/-!
SUPPORT. The host's hex digits: what the parser takes for one, and that it reads back what the
formatter writes.
-/

namespace Sys2Proof.Machine

/-- The parser's digits are the hex digits. -/
theorem hexVal_eq_some_iff (b : Bool) (c : Char) (n : Nat) :
    hexVal b c = some n ↔ IsHexDigit b c n := by
  unfold hexVal IsHexDigit
  constructor
  · intro h
    split_ifs at h <;> simp at h <;> simp_all
  · rintro (h | h | ⟨rfl, h⟩)
    · rw [if_pos ⟨h.1, h.2.1⟩, h.2.2]
    · rw [if_neg (by omega), if_pos ⟨h.1, h.2.1⟩, h.2.2]
    · rw [if_neg (by omega), if_neg (by omega), if_pos ⟨h.1, h.2.1⟩, if_pos rfl, h.2.2]

/-- A character the parser does not take is no hex digit. -/
theorem hexVal_eq_none_iff (b : Bool) (c : Char) :
    hexVal b c = none ↔ ∀ n, ¬ IsHexDigit b c n := by
  simp only [← hexVal_eq_some_iff]
  cases hexVal b c <;> simp

/-- A hex digit's value is below 16. -/
theorem IsHexDigit.lt {b : Bool} {c : Char} {n : Nat} (h : IsHexDigit b c n) : n < 16 := by
  unfold IsHexDigit at h
  omega

/-- The digit the formatter writes is read back, with upper case accepted or not. -/
theorem hexVal_hexChar (b : Bool) (n : Nat) (h : n < 16) : hexVal b (hexChar n) = some n := by
  have all : ∀ (b : Bool) (m : Fin 16), hexVal b (hexChar m) = some m.val := by decide
  exact all b ⟨n, h⟩

end Sys2Proof.Machine
end

