-- ==== Sys2Proof/Laws/PerInstr.lean ====
section
/-!
SUPPORT. Statements about every command, one lemma per constructor of `Instr`.
-/

namespace Sys2Proof.Laws

/-! ### The operand fits its field -/

/-- The command is well-formed. -/
def WellFormedOperand.Statement (i : Instr) : Prop := i.wf = true

theorem WellFormedOperand.reserved0 : Statement .reserved0 := rfl

theorem WellFormedOperand.d2s (i : Digit) : Statement (.d2s i) := decide_eq_true i.isLt

theorem WellFormedOperand.s2d (c : CharCode) : Statement (.s2d c) := decide_eq_true c.isLt

theorem WellFormedOperand.enc (u : ByteVec) : Statement (.enc u) := decide_eq_true u.isLt

theorem WellFormedOperand.dec (g : DigitVec) : Statement (.dec g) := decide_eq_true g.isLt

theorem WellFormedOperand.encs (u : ByteVec) : Statement (.encs u) := decide_eq_true u.isLt

theorem WellFormedOperand.decs (cs : CharVec) : Statement (.decs cs) := decide_eq_true cs.isLt

theorem WellFormedOperand.reserved7 : Statement .reserved7 := rfl

/-! ### The fields of an encoded command -/

/-- The bits of `op ++ data`. -/
theorem getLsbD_mkWord (op : Opcode) (d : Data) (k : Nat) :
    (mkWord op d).getLsbD k = if k < 176 then d.getLsbD k else op.getLsbD (k - 176) :=
  BitVec.getLsbD_append

/-- The field `op` of an encoded command. -/
theorem opField_mkWord (op : Opcode) (d : Data) : opField (mkWord op d) = op := by
  apply BitVec.eq_of_getLsbD_eq
  intro k hk
  rw [opField, BitVec.getLsbD_extractLsb', getLsbD_mkWord]
  simp [hk]

/-- The field `data` of an encoded command. -/
theorem dataField_mkWord (op : Opcode) (d : Data) : dataField (mkWord op d) = d := by
  apply BitVec.eq_of_getLsbD_eq
  intro k hk
  rw [dataField, BitVec.getLsbD_extractLsb', getLsbD_mkWord]
  simp [hk]

/-- The encoded word holds the command's opcode and its operand, each in its field. -/
def OpcodeField.Statement (i : Instr) : Prop :=
  opField (encode i) = i.opcode ∧ dataField (encode i) = i.data

theorem OpcodeField.any (i : Instr) : Statement i :=
  ⟨opField_mkWord i.opcode i.data, dataField_mkWord i.opcode i.data⟩

theorem OpcodeField.reserved0 : Statement .reserved0 := any _

theorem OpcodeField.d2s (i : Digit) : Statement (.d2s i) := any _

theorem OpcodeField.s2d (c : CharCode) : Statement (.s2d c) := any _

theorem OpcodeField.enc (u : ByteVec) : Statement (.enc u) := any _

theorem OpcodeField.dec (g : DigitVec) : Statement (.dec g) := any _

theorem OpcodeField.encs (u : ByteVec) : Statement (.encs u) := any _

theorem OpcodeField.decs (cs : CharVec) : Statement (.decs cs) := any _

theorem OpcodeField.reserved7 : Statement .reserved7 := any _

end Sys2Proof.Laws
end

