-- ==== Sys2Proof/Laws/Step.lean ====
section
/-!
SUPPORT. What a clock edge can do, said once.
-/

namespace Sys2Proof.Machine

@[simp] theorem State.withFetchWord_res (s : State) (n w : Nat) :
    (s.withFetchWord n w).res = s.res := rfl

@[simp] theorem State.withFetchWord_err (s : State) (n w : Nat) :
    (s.withFetchWord n w).err = s.err := rfl

@[simp] theorem State.withFetchWord_rvalid (s : State) (n w : Nat) :
    (s.withFetchWord n w).rvalid = s.rvalid := rfl

@[simp] theorem State.withFetchWord_inFlight (s : State) (n w : Nat) :
    (s.withFetchWord n w).inFlight = some { word := BitVec.ofNat 179 w, remaining := 0 } := rfl

@[simp] theorem State.withFetchWord_inputs (s : State) (n w : Nat) :
    (s.withFetchWord n w).inputs = Edge.idle :: s.inputs := rfl

@[simp] theorem State.withFetchWord_draws (s : State) (n w : Nat) :
    (s.withFetchWord n w).draws = s.draws := rfl

/-- The operand a host drives: its own bits, or a `RES` that is valid. -/
theorem State.hostOperand_eq_ok_iff (s : State) (o : HostOperand) (d : Data) :
    s.hostOperand o = .ok d ↔ o = .data d ∨ (o = .res ∧ s.rvalid = true ∧ s.res = d) := by
  cases o with
  | data d' => simp [State.hostOperand]
  | res => simp [State.hostOperand, State.readRes_eq_ok_iff]

/-- What an edge can do, when it leaves a next state: reset, an idle edge, an edge of waiting, an
acceptance, or a command executed (one that was in flight, or one that completes as it is accepted). -/
theorem step_cases {s t : State} (h : step s = .next t) :
    (s.pins.rst = true ∧ t = s.popEdge.applyReset) ∨
    (s.pins.rst = false ∧ s.inFlight = none ∧ s.pins.cmd = none ∧ t = s.popEdge) ∨
    (∃ w n, s.pins.rst = false ∧ s.inFlight = some { word := w, remaining := n + 1 } ∧
      t = s.popEdge.withInFlight (some { word := w, remaining := n })) ∨
    (∃ c d n, s.pins.rst = false ∧ s.inFlight = none ∧ s.pins.cmd = some c ∧
      s.popEdge.hostOperand c.operand = .ok d ∧
      Config.latency (opField (mkWord c.op d)) = n + 1 ∧
      t = s.popEdge.withInFlight (some { word := mkWord c.op d, remaining := n })) ∨
    (∃ w, s.pins.rst = false ∧ exec (decode w) (s.popEdge.withInFlight none) = .next t ∧
      (s.inFlight = some { word := w, remaining := 0 } ∨
        (s.inFlight = none ∧ ∃ c d, s.pins.cmd = some c ∧
          s.popEdge.hostOperand c.operand = .ok d ∧ w = mkWord c.op d ∧
          Config.latency (opField w) = 0))) := by
  unfold step clockEdge at h
  cases hr : s.pins.rst with
  | true =>
    refine .inl ⟨rfl, ?_⟩
    simpa [hr, eq_comm] using h
  | false =>
    simp only [hr, Bool.false_eq_true, if_false] at h
    unfold commandEdge at h
    rw [State.popEdge_inFlight] at h
    cases hf : s.inFlight with
    | some f =>
      obtain ⟨w, m⟩ := f
      cases m with
      | zero =>
        simp only [hf] at h
        exact .inr (.inr (.inr (.inr ⟨w, rfl, h, .inl rfl⟩)))
      | succ n =>
        simp only [hf, Host.Outcome.next.injEq] at h
        exact .inr (.inr (.inl ⟨w, n, rfl, rfl, h.symm⟩))
    | none =>
      cases hc : s.pins.cmd with
      | none =>
        simp only [hf, hc, Host.Outcome.next.injEq] at h
        exact .inr (.inl ⟨rfl, rfl, rfl, h.symm⟩)
      | some c =>
        simp only [hf, hc, acceptCommand] at h
        cases ho : s.popEdge.hostOperand c.operand with
        | error f => simp [ho] at h
        | ok d =>
          simp only [ho, acceptWord] at h
          cases hl : Config.latency (opField (mkWord c.op d)) with
          | zero =>
            simp only [hl] at h
            exact .inr (.inr (.inr (.inr
              ⟨_, rfl, h, .inr ⟨rfl, c, d, rfl, ho, rfl, hl⟩⟩)))
          | succ n =>
            simp only [hl, Host.Outcome.next.injEq] at h
            exact .inr (.inr (.inr (.inl ⟨c, d, n, rfl, rfl, rfl, ho, hl, h.symm⟩)))

@[simp] theorem steps_zero (s : State) : steps 0 s = .next s := rfl

/-- One edge, then the rest. -/
theorem steps_succ_of_next {s t : State} (h : step s = .next t) (k : Nat) :
    steps (k + 1) s = steps k t := by
  simp [steps, h]

/-- A run cut in two. -/
theorem steps_add_of_next {s t : State} (k m : Nat) (h : steps k s = .next t) :
    steps (k + m) s = steps m t := by
  induction k generalizing s with
  | zero => simp_all
  | succ k ih =>
    rw [Nat.add_right_comm]
    cases hs : step s with
    | next u => rw [steps_succ_of_next hs] at h ⊢; exact ih h
    | fault f => simp [steps, hs] at h
    | refused r => simp [steps, hs] at h

/-- An invariant of every step holds along every run. -/
theorem steps_induction (P : State → Prop) (hstep : ∀ s t, P s → step s = .next t → P t)
    (k : Nat) {s t : State} (hs : P s) (h : steps k s = .next t) : P t := by
  induction k generalizing s with
  | zero => simp_all
  | succ k ih =>
    cases hu : step s with
    | next u => rw [steps_succ_of_next hu] at h; exact ih (hstep s u hs hu) h
    | fault f => simp [steps, hu] at h
    | refused r => simp [steps, hu] at h

end Sys2Proof.Machine
end

