-- ==== Sys2Proof/Tests/Slice0.lean ====
section
/-!
SUPPORT. The model's own tests. Every expected value is written out from the spec: 30_encoding.md §5
and 95_test_vectors.md. The witnesses at the end meet the hypotheses of the statements in
Sys2Proof/Certificates/Slice0/Obligations.lean.
-/

namespace Sys2Proof.Tests

open Sys2Proof Sys2Proof.Machine

/-! ### Well-formedness: one ill-formed line for each check (30_encoding.md R77) -/

theorem test_wf_hex_too_wide : AsmLine.wf ⟨.decs, .hex (2 ^ 176)⟩ = false := by decide

theorem test_wf_decimal_only_d2s : AsmLine.wf ⟨.enc, .decimal 63⟩ = false := by decide

theorem test_wf_decimal_too_wide : AsmLine.wf ⟨.d2s, .decimal (2 ^ 176)⟩ = false := by decide

theorem test_wf_char_only_s2d : AsmLine.wf ⟨.d2s, .char '$'⟩ = false := by decide

theorem test_wf_char_not_ascii : AsmLine.wf ⟨.s2d, .char 'é'⟩ = false := by decide

theorem test_wf_string_only_decs :
    AsmLine.wf ⟨.encs, .string (List.replicate 22 '0')⟩ = false := by decide

theorem test_wf_string_short : AsmLine.wf ⟨.decs, .string (List.replicate 21 '0')⟩ = false := by
  decide

theorem test_wf_string_not_ascii :
    AsmLine.wf ⟨.decs, .string ('é' :: List.replicate 21 '0')⟩ = false := by decide

theorem test_wf_digits_only_dec : AsmLine.wf ⟨.decs, .digits (List.replicate 22 0)⟩ = false := by
  decide

theorem test_wf_digits_long : AsmLine.wf ⟨.dec, .digits (List.replicate 23 0)⟩ = false := by decide

theorem test_wf_digits_range :
    AsmLine.wf ⟨.dec, .digits (64 :: List.replicate 21 0)⟩ = false := by decide

theorem test_wf_res_anywhere : AsmLine.wf ⟨.op7, .res⟩ = true := by decide

/-! ### Decoding: the worked encodings of 30_encoding.md §5 and the vectors of 95_test_vectors.md -/

theorem test_decode_reserved0 :
    decode 0x000000000000000000000000000000000000000001234#179 = .reserved0 := by decide

theorem test_decode_d2s :
    decode 0x10000000000000000000000000000000000000000003f#179 = .d2s 63 := by decide

theorem test_decode_d2s_junk_above :
    decode 0x10000000000000000000000000000000000002af37bff#179 = .d2s 63 := by decide

theorem test_decode_s2d :
    decode 0x200000000000000000000000000000000000000000024#179 = .s2d 0x24 := by decide

theorem test_decode_enc_junk_above :
    decode 0x300000000ffff0123456789abcdef0123456789abcdef#179
      = .enc 0x0123456789abcdef0123456789abcdef := by decide

theorem test_decode_dec :
    decode 0x400000000000f7d000001000000000000000000000000#179
      = .dec 0xf7d000001000000000000000000000000 := by decide

theorem test_decode_encs :
    decode 0x50000000000000123456789abcdef0123456789abcdef#179
      = .encs 0x0123456789abcdef0123456789abcdef := by decide

theorem test_decode_decs :
    decode 0x6303138714c6459516c44786d345a484d55396779746c#179
      = .decs 0x303138714c6459516c44786d345a484d55396779746c := by decide

theorem test_decode_reserved7 :
    decode 0x7ffffffffffffffffffffffffffffffffffffffffffff#179 = .reserved7 := by decide

theorem test_encode_s2d :
    encode (.s2d 0x2d) = 0x20000000000000000000000000000000000000000002d#179 := by decide

theorem test_encode_dec :
    encode (.dec 0x0ffffffffffffffffffffffffffffffff)
      = 0x4000000000000ffffffffffffffffffffffffffffffff#179 := by decide

theorem test_wider_word_rejected :
    decodeNat (2 ^ 179) = .error .widerThanCommandWord := by decide

theorem test_table_word :
    decodeTableWord 184 0x100000000000000000000000000000000000000000003 = some (.d2s 3) := by decide

theorem test_rows_do_not_overlap : rowMatch.Pairwise (· ≠ ·) := by decide

/-! ### The assembler (30_encoding.md §5; 95_test_vectors.md) -/

theorem test_assemble_decimal :
    assemble ⟨.d2s, .decimal 63⟩ = some { op := 0b001#3, operand := .data 0x3f } := by decide

theorem test_assemble_char :
    assemble ⟨.s2d, .char '$'⟩ = some { op := 0b010#3, operand := .data 0x24 } := by decide

theorem test_assemble_string :
    assemble ⟨.decs, .string "018qLdYQlDxm4ZHMU9gytl".toList⟩ = some
      { op := 0b110#3
        operand := .data 0x303138714c6459516c44786d345a484d55396779746c } := by decide

theorem test_assemble_digits :
    assemble ⟨.dec, .digits [61, 61, 0, 0, 0, 1, 0, 0, 0, 0, 0, 0, 0, 0, 0, 0, 0, 0, 0, 0, 0, 0]⟩
      = some { op := 0b100#3, operand := .data 0xf7d000001000000000000000000000000 } := by decide

theorem test_assemble_refuses : assemble ⟨.enc, .char '0'⟩ = none := by decide

/-! ### One step of one command -/

/-- A small state: the last command was good. -/
def ready : State :=
  { res := 0x07, err := 0, rvalid := true, inFlight := none, inputs := [], draws := 3 }

/-- The three registers after a step, if there is a next state. -/
def regs : Host.Outcome State Fault Refusal → Option (Data × ErrCode × Bool)
  | .next t => some (t.res, t.err, t.rvalid)
  | _ => none

/-- `ERR` and `RVALID` after a step: all that an error fixes. -/
def flags : Host.Outcome State Fault Refusal → Option (ErrCode × Bool)
  | .next t => some (t.err, t.rvalid)
  | _ => none

/-- V-LUT: `D2S 11` gives `B`, from reset. -/
theorem test_d2s_11 :
    regs (step (State.reset.withFetchWord 184 0x10000000000000000000000000000000000000000000b))
      = some (0x42, 0, true) := by decide

/-- R90: the last class boundary, `z` to `_`. -/
theorem test_d2s_62 : regs (exec (.d2s 62) ready) = some (0x5F, 0, true) := by decide

/-- V-LUT: case matters. -/
theorem test_s2d_A_and_a :
    regs (exec (.s2d 0x41) ready) = some (10, 0, true) ∧
    regs (exec (.s2d 0x61) ready) = some (36, 0, true) := by decide

/-- V-ERR: `S2D '-'`, from reset. -/
theorem test_s2d_hyphen :
    flags (step (State.reset.withFetchWord 184 0x20000000000000000000000000000000000000000002d))
      = some (1, false) := by decide

/-- V-ENC, a row in which every digit differs from its neighbours. -/
theorem test_enc_digits :
    (encDigits 0x0123456789abcdef0123456789abcdef).map BitVec.toNat
      = [0, 1, 8, 52, 21, 39, 34, 26, 47, 13, 59, 48, 4, 35, 17, 22, 30, 9, 42, 60, 55, 47] := by
  decide

theorem test_enc_result :
    regs (exec (.enc 0xdeadbeefcafebabe0123456789abcdef) ready)
      = some (0x0deadbeefcafebabe0123456789abcdef, 0, true) := by decide

/-- V-DEC-10: a first group above 255 is truncated, with no error. -/
theorem test_dec_truncates :
    regs (exec (.dec 0xf7d000000000000000000000000000000) ready)
      = some (0x7d000000000000000000000000000000, 0, true) := by decide

/-- V-DEC-14. -/
theorem test_dec_all_ten :
    regs (exec (.dec 0x28a28a28a28a28a28a28a28a28a28a28a) ready)
      = some (0x8a28a28a28a28a28a28a28a28a28a28a, 0, true) := by decide

/-- P1 step 1: the string `018qLdYQlDxm4ZHMU9gytl`, from reset. -/
theorem test_encs_from_reset :
    regs (step (State.reset.withFetchWord 184 0x50000000000000123456789abcdef0123456789abcdef))
      = some (0x303138714c6459516c44786d345a484d55396779746c, 0, true) := by decide

/-- E2: all ones give `3` and twenty-one `$`. -/
theorem test_encs_all_ones :
    regs (exec (.encs 0xffffffffffffffffffffffffffffffff) ready)
      = some (0x33242424242424242424242424242424242424242424, 0, true) := by decide

/-- V-DECS, the string `_$abcdefghijklmnopqrst`. -/
theorem test_decs_not_canonical :
    regs (exec (.decs 0x5f246162636465666768696a6b6c6d6e6f7071727374) ready)
      = some (0xbf9259a7a29aabb2dbafc31cb3d35db7, 0, true) := by decide +kernel

/-- V-ERR: one bad character, in the last position. -/
theorem test_decs_bad_last :
    flags (exec (.decs 0x3030303030303030303030303030303030303030302d) ready)
      = some (1, false) := by decide

/-- V-ERR: `.op 0` and `.op 7`, from reset. -/
theorem test_reserved :
    flags (step (State.reset.withFetchWord 184 0x1234)) = some (2, false) ∧
    flags (step (State.reset.withFetchWord 184
      0x7ffffffffffffffffffffffffffffffffffffffffffff)) = some (2, false) := by decide

/-! ### The ports -/

/-- R169: reset comes before the command that would complete at the same edge. -/
theorem test_reset_wins :
    flags (step { ready with
      inFlight := some { word := encode (.d2s 3), remaining := 0 }, inputs := [Edge.reset] })
      = some (0, false) := by decide

/-- R190: the host may not have a `RES` accepted that is not valid. -/
theorem test_res_after_reset_faults :
    (match step (State.reset.withInputs
        [Edge.present { op := 0b011#3, operand := .res }]) with
      | .fault .resNotValid => true
      | _ => false) = true := by decide

/-- R191: a command in flight is not disturbed by what is presented. -/
theorem test_busy_port :
    regs (step { ready with
      inFlight := some { word := encode (.d2s 3), remaining := 0 }
      inputs := [Edge.present { op := 0b000#3, operand := .data 0 }] })
      = some (0x33, 0, true) := by decide

/-! ### The host's text layer (95_test_vectors.md V-HOST) -/

theorem test_hex_parse :
    hexParse false "0123456789abcdef0123456789abcdef".toList
      = .ok 0x0123456789abcdef0123456789abcdef := by decide

theorem test_hex_parse_upper :
    hexParse true "0123456789ABCDEF0123456789ABCDEF".toList
      = .ok 0x0123456789abcdef0123456789abcdef ∧
    hexParse false "0123456789ABCDEF0123456789ABCDEF".toList = .error .invalidHexInput := by decide

theorem test_hex_parse_short :
    hexParse true "0123456789abcdef0123456789abcde".toList = .error .invalidHexInput := by decide

theorem test_hex_parse_bad_digit :
    hexParse true "0123456789abcdeg0123456789abcdef".toList = .error .invalidHexInput := by decide

theorem test_hex_format :
    hexFormat 0x000102030405060708090a0b0c0d0e0f
      = "000102030405060708090a0b0c0d0e0f".toList := by decide

theorem test_hex_parse_long :
    hexParse true (List.replicate 33 '0') = .error .invalidHexInput := by decide

/-- V-HOST: `4000000000000000000000` gives zeros. -/
theorem test_decs_not_canonical_zeros :
    regs (exec (.decs 0x34303030303030303030303030303030303030303030) ready) = some (0, 0, true) ∧
    hexFormat 0 = List.replicate 32 '0' := by decide +kernel

theorem test_split :
    split "0123456789abcdef0123456789abcdef".toList
      = .ok "01234567-89ab-cdef-0123-456789abcdef".toList := by decide

theorem test_strip :
    stripHyphens "01234567-89ab-cdef-0123-456789abcdef".toList
      = "0123456789abcdef0123456789abcdef".toList := by decide

theorem test_expand_short : expand "short".toList ready = .next (ready, .error .invalidLength) := rfl

theorem test_tool_no_flag : tool none false ready = .next (ready, .ok none) := rfl

/-! ### Witnesses of the statements' hypotheses -/

/-- The word of `D2S 3`. -/
def wordD2s3 : CmdWord := 0x100000000000000000000000000000000000000000003#179

/-- A state with a command in flight and `n` edges to wait. -/
def busy (n : Nat) : State := { ready with inFlight := some { word := wordD2s3, remaining := n } }

/-- A state whose host presents a command. -/
def presenting (o : HostOperand) : State :=
  { ready with inputs := [Edge.present { op := 0b001#3, operand := o }] }

theorem witness_StepRunsTheDecodedCommand :
    (busy 0).inFlight = some { word := wordD2s3, remaining := 0 } ∧ (busy 0).pins.rst = false := by
  decide

theorem witness_ReadyBlockAcceptsCommand :
    (presenting (.data 63)).cmdReady = true ∧
    (presenting (.data 63)).pins.cmd = some { op := 0b001#3, operand := .data 63 } := by decide

theorem witness_BusyBlockIgnoresCommandPort :
    (busy 0).inFlight = some { word := wordD2s3, remaining := 0 } := rfl

theorem witness_WaitingEdgeKeepsRegisters :
    (busy 1).inFlight = some { word := wordD2s3, remaining := 0 + 1 } ∧
    (busy 1).pins.rst = false := by decide

theorem witness_IdleEdgeChangesNothing : ready.cmdReady = true ∧ ready.pins.cmd = none := by decide

/-- A command accepted with its own data. -/
theorem witness_AcceptedCommandCompletes_data :
    (presenting (.data 63)).cmdReady = true ∧
    (presenting (.data 63)).pins.cmd = some { op := 0b001#3, operand := .data 63 } ∧
    ∀ e ∈ (presenting (.data 63)).inputs.take (Config.latency 0b001#3 + 1), e.rst = false := by
  refine ⟨rfl, rfl, fun e he => ?_⟩
  rw [List.mem_singleton.mp (List.mem_of_mem_take he)]
  rfl

/-- A command accepted with the content of `RES`. -/
theorem witness_AcceptedCommandCompletes_res :
    (presenting .res).cmdReady = true ∧
    (presenting .res).pins.cmd = some { op := 0b001#3, operand := .res } ∧
    (presenting .res).rvalid = true ∧ (presenting .res).res = 0x07 ∧
    ∀ e ∈ (presenting .res).inputs.take (Config.latency 0b001#3 + 1), e.rst = false := by
  refine ⟨rfl, rfl, rfl, rfl, fun e he => ?_⟩
  rw [List.mem_singleton.mp (List.mem_of_mem_take he)]
  rfl

/-- A command in flight, and one whose completing edge is the coming one. -/
theorem witness_AcceptedCommandCompletes_inFlight :
    (busy 2).inFlight = some { word := wordD2s3, remaining := 2 } ∧
    (∀ e ∈ (busy 2).inputs.take (2 + 1), e.rst = false) ∧
    (busy 0).inFlight = some { word := wordD2s3, remaining := 0 } ∧
    ∀ e ∈ (busy 0).inputs.take (0 + 1), e.rst = false := by decide

theorem witness_StepFaultsOnlyOnInvalidRes :
    ({ presenting .res with rvalid := false } : State).cmdReady = true ∧
    ({ presenting .res with rvalid := false } : State).pins.cmd
      = some { op := 0b001#3, operand := .res } := by decide

theorem witness_BlockNeverStopsDutifulHost : (presenting .res).HostKeepsDuty :=
  fun _ _ _ _ => rfl

theorem witness_ResOperandIsContentOfRes : ready.rvalid = true ∧ ready.inFlight = none := by decide

theorem witness_OutcomeDependsOnCommandAlone :
    ∃ t t' : State, exec (.enc 1) ready = .next t ∧ exec (.enc 1) State.reset = .next t' ∧
      t.rvalid = true := ⟨_, _, rfl, rfl, rfl⟩

theorem witness_ErrorsAndTheirCommands :
    (∃ t : State, exec (.s2d 0x2d) ready = .next t ∧ t.err = 0b01#2) ∧
    (∃ t : State, exec .reserved0 ready = .next t ∧ t.err = 0b10#2) ∧
    (∃ t : State, exec (.d2s 0) ready = .next t ∧ t.rvalid = true) :=
  ⟨⟨_, rfl, by decide⟩, ⟨_, rfl, by decide⟩, ⟨_, rfl, by decide⟩⟩

theorem witness_ErrorLeavesResFree :
    ∃ t : State, exec .reserved7 ready = .next t ∧ t.rvalid = false := ⟨_, rfl, rfl⟩

theorem witness_StepKeepsStatusLegal :
    ready.Legal ∧ ∃ t : State, step ready = .next t := ⟨by decide, _, rfl⟩

theorem witness_ReachableStatusLegal : ReachedFromReset State.reset := ⟨[], 0, rfl⟩

theorem witness_TableIsBijection : lutRev 0x24 = some 63 ∧ lutFwd 63 = lutFwd 63 := by decide

theorem witness_SymbolLutPorts : lutRev 0x30 = some 0 ∧ lutRev 0x2F = none := by decide

theorem witness_S2dGivesDigitOrInvalidSymbol :
    (∀ d : Digit, lutFwd d ≠ 0x2F) ∧ (∀ d : Digit, lutFwd d ≠ 0x3A) ∧
    (∀ d : Digit, lutFwd d ≠ 0x40) ∧ (∀ d : Digit, lutFwd d ≠ 0x5B) ∧
    (∀ d : Digit, lutFwd d ≠ 0x60) ∧ (∀ d : Digit, lutFwd d ≠ 0x7B) ∧
    (∀ d : Digit, lutFwd d ≠ 0x23) ∧ (∀ d : Digit, lutFwd d ≠ 0x25) ∧
    (∀ d : Digit, lutFwd d ≠ 0xFF) := by decide

theorem witness_D2sAndS2dAreInverse : lutRev 0x7A = some 61 := by decide

theorem witness_EncDigitsByGroup :
    (1 ≤ 1 ∧ 1 ≤ 5 ∧ 0 ≤ 3 ∧ 4 * 1 - 2 + 0 = 2) ∧
    (1 ≤ 5 ∧ 5 ≤ 5 ∧ 3 ≤ 3 ∧ 4 * 5 - 2 + 3 = 21) := by decide

theorem witness_DecBytesByGroup : (1 ≤ 1 ∧ 3 * 1 - 2 = 1) ∧ (5 ≤ 5 ∧ 3 * 5 = 15) := by decide

theorem witness_EncImageIsCanonical :
    encVec 5 = encVec 5 ∧ (5 : DigitVec).extractLsb' 128 4 = 0#4 ∧ encVec 5 = 5 := by decide

theorem witness_EncsStaysInAlphabet : 0 < 22 ∧ 21 < 22 := by decide

/-- The canonical string `3$ABC...` and the string `7$ABC...` that is not. -/
theorem witness_CanonicalForms :
    (∀ k < 22, lutFwd (digitAt 0x0ff28b30d38f41149351559761969b71d k)
      = charAt 0x33244142434445464748494a4b4c4d4e4f5051525354 k) ∧
    (∀ k < 22, lutFwd (digitAt 0x1ff28b30d38f41149351559761969b71d k)
      = charAt 0x37244142434445464748494a4b4c4d4e4f5051525354 k) ∧
    canonicalDigits 0x0ff28b30d38f41149351559761969b71d ∧
    ¬ canonicalDigits 0x1ff28b30d38f41149351559761969b71d := by decide

theorem witness_RoundTripLaws :
    canonicalDigits 0x0ffffffffffffffffffffffffffffffff ∧
    ¬ canonicalDigits 0x100000000000000000000000000000000 ∧ 1 ≤ 1 ∧ 21 < 22 := by decide

theorem witness_DecsGivesBytesOrInvalidSymbol :
    (∀ k < 22, lutFwd (digitAt 0xfffffffffffffffffffffffffffffffff k)
      = charAt 0x24242424242424242424242424242424242424242424 k) ∧
    (∀ d : Digit, lutFwd d ≠ charAt 0x3030303030303030303030303030303030303030302d 21) ∧
    (∀ d : Digit, lutFwd d ≠ charAt 0x2b303030303030303030303030303030303030303030 0) := by decide

theorem witness_GroupsDoNotInteract :
    byteAt 0x01000000000000000000000000000000 0 = byteAt 0x01ffffffffffffffffffffffffffffff 0 ∧
    (∀ j < 3, byteAt 0x00000000000000000000000000abcdef (3 * 5 - 2 + j)
      = byteAt 0xffffffffffffffffffffffffffabcdef (3 * 5 - 2 + j)) ∧
    (∀ k < 2, digitAt 0x041000000000000000000000000000000 k
      = digitAt 0x041ffffffffffffffffffffffffffffff k) ∧
    (∀ j < 4, digitAt 0x000000000000000000000000000abcdef (4 * 5 - 2 + j)
      = digitAt 0xfffffffffffffffffffffffffffabcdef (4 * 5 - 2 + j)) := by decide

/-- A canonical and a non-canonical operand. -/
theorem witness_EncsAfterDecsCanonicalises :
    (∀ k < 22, lutFwd (digitAt 0 k) = charAt 0x30303030303030303030303030303030303030303030 k) ∧
    (∀ k < 22, lutFwd (digitAt 0x100000000000000000000000000000000 k)
      = charAt 0x34303030303030303030303030303030303030303030 k) := by decide

theorem witness_IssueRunsOneCommand :
    ready.inFlight = none ∧
    (busy 1).inFlight = some { word := wordD2s3, remaining := 1 } ∧
    ∃ t : State, exec (decode wordD2s3) { busy 1 with inFlight := none } = .next t :=
  ⟨rfl, rfl, _, rfl⟩

theorem witness_HexFormatAndParseAgree :
    (List.replicate 32 'f').length = 32 ∧
    ∀ c ∈ List.replicate 32 'f',
      (0x30 ≤ c.toNat ∧ c.toNat ≤ 0x39) ∨ (0x61 ≤ c.toNat ∧ c.toNat ≤ 0x66) :=
  ⟨by decide, fun c hc => by rw [List.eq_of_mem_replicate hc]; decide⟩

/-- Each character that stands next to a range of hex digits is none. -/
theorem not_hex_digit (b : Bool) (c : Char)
    (h : c ∈ ['/', ':', '@', 'G', '`', 'g', '-', 'é']) (n : Nat) : ¬ IsHexDigit b c n := by
  simp only [List.mem_cons, List.not_mem_nil, or_false] at h
  rcases h with rfl | rfl | rfl | rfl | rfl | rfl | rfl | rfl <;> simp [IsHexDigit]

/-- 32 equal hex digits spell bytes. -/
theorem spells_replicate {b : Bool} {c : Char} {n : Nat} (u : ByteVec) (h : IsHexDigit b c n)
    (hu : ∀ i < 16, (byteAt u i).toNat = 16 * n + n) :
    SpellsBytes b (List.replicate 32 c) u := by
  refine ⟨List.length_replicate, fun i hi => ⟨c, c, n, n, ?_, ?_, h, h, hu i hi⟩⟩ <;>
    exact List.getElem?_replicate_of_lt (by omega)

/-- Lower case with either parser, upper case with the one that accepts it; and malformed
strings of 31, 33, 0 and 32 characters. -/
theorem witness_HexParseReadsOrRefuses :
    (∀ b, SpellsBytes b (List.replicate 32 'f') 0xffffffffffffffffffffffffffffffff) ∧
    (∀ b, SpellsBytes b (List.replicate 32 '9') 0x99999999999999999999999999999999) ∧
    SpellsBytes true (List.replicate 32 'A') 0xaaaaaaaaaaaaaaaaaaaaaaaaaaaaaaaa ∧
    MalformedHex false (List.replicate 32 'A') ∧
    (∀ b, MalformedHex b (List.replicate 31 '0')) ∧ (∀ b, MalformedHex b (List.replicate 33 '0')) ∧
    (∀ b, MalformedHex b []) ∧ (∀ b, MalformedHex b (List.replicate 31 '0' ++ ['g'])) :=
  ⟨fun _ => spells_replicate (n := 15) _ (by simp [IsHexDigit]) (by decide),
    fun _ => spells_replicate (n := 9) _ (by simp [IsHexDigit]) (by decide),
    spells_replicate (n := 10) _ (by simp [IsHexDigit]) (by decide),
    .inr ⟨'A', by decide, fun n => by simp [IsHexDigit]⟩,
    fun _ => .inl (by decide), fun _ => .inl (by decide), fun _ => .inl (by decide),
    fun b => .inr ⟨'g', by decide, not_hex_digit b 'g' (by decide)⟩⟩

theorem witness_CompressGivesSymbols :
    MalformedHex Config.hexAcceptUpper (List.replicate 33 '0') ∧
    MalformedHex Config.hexAcceptUpper (List.replicate 31 '0' ++ ['g']) ∧
    SpellsBytes Config.hexAcceptUpper (List.replicate 32 'f') 0xffffffffffffffffffffffffffffffff ∧
    ready.inFlight = none :=
  ⟨.inl (by decide), .inr ⟨'g', by decide, not_hex_digit _ 'g' (by decide)⟩,
    spells_replicate (n := 15) _ (by simp [IsHexDigit]) (by decide), rfl⟩

/-- A canonical string; the string of V-HOST that is not, and the last symbol 22 times. -/
theorem witness_ExpandGivesDecodedBytes :
    SpellsDigits (List.replicate 22 '0') 0 ∧
    SpellsDigits ('4' :: List.replicate 21 '0') 0x100000000000000000000000000000000 ∧
    SpellsDigits (List.replicate 22 '$') 0xfffffffffffffffffffffffffffffffff ∧
    ready.inFlight = none := by
  unfold SpellsDigits
  decide +kernel

theorem witness_ExpandUndoesCompress : ready.inFlight = none := rfl

theorem witness_ExpandErrors :
    (List.replicate 21 '0').length ≠ 22 ∧ (List.replicate 23 '0').length ≠ 22 ∧
    ("000000000000000000000-".toList).length = 22 ∧ ready.inFlight = none ∧
    '-' ∈ "000000000000000000000-".toList ∧
    (∀ d : Digit, (lutFwd d).toNat ≠ '-'.toNat) ∧
    (∀ d : Digit, (lutFwd d).toNat ≠ 'é'.toNat) := by decide

theorem witness_SplitInsertsHyphens :
    (List.replicate 8 'a').length = 8 ∧ (List.replicate 4 'b').length = 4 ∧
    (List.replicate 12 'c').length = 12 ∧
    split (List.replicate 32 'a') = .ok "aaaaaaaa-aaaa-aaaa-aaaa-aaaaaaaaaaaa".toList ∧
    (List.replicate 31 'a').length ≠ 32 := by decide

theorem witness_StripUndoesSplit :
    split (List.replicate 32 'a') = .ok "aaaaaaaa-aaaa-aaaa-aaaa-aaaaaaaaaaaa".toList ∧
    '-' ∉ List.replicate 32 'a' := by decide

end Sys2Proof.Tests
end

/-!
The closed forms of `Enc` and `Dec` (41_encoder.md R101, 42_decoder.md R116). Packing the elements of
a group concatenates its bits, so each proof compares one number per group: that of group 0, then
24 bits for each of the groups 1 to 5 (20_memory.md R57).
-/

namespace Sys2Proof.Machine

/-- The value of `xs ++ ys`, with `xs` in the more significant place (00_scope.md R7). -/
theorem concatValue_append {w : Nat} (xs ys : List (BitVec w)) :
    concatValue (xs ++ ys) = concatValue xs * 2 ^ (w * ys.length) + concatValue ys := by
  rw [concatValue, List.foldl_append]
  exact foldl_concat ys (concatValue xs)

/-- If group `g` packs to the bits `143 - 24g` to `120 - 24g` of `x`, then the groups 1 to 5, put
after group 0, pack to the low 120 bits of `x` (20_memory.md R57). -/
theorem concatValue_append_groups {w : Nat} (x : Nat) (group0 : List (BitVec w))
    (group : Nat → List (BitVec w)) (hlen : ∀ g, w * (group g).length = 24)
    (hval : ∀ g, 1 ≤ g → g ≤ 5 → concatValue (group g) = x / 2 ^ (120 - 24 * g) % 2 ^ 24) :
    concatValue (group0 ++ [1, 2, 3, 4, 5].flatMap group)
      = concatValue group0 * 2 ^ 120 + x % 2 ^ 120 := by
  have h1 := hval 1 (by decide) (by decide)
  have h2 := hval 2 (by decide) (by decide)
  have h3 := hval 3 (by decide) (by decide)
  have h4 := hval 4 (by decide) (by decide)
  have h5 := hval 5 (by decide) (by decide)
  simp only [List.flatMap_cons, List.flatMap_nil, List.append_nil, concatValue_append,
    List.length_append, Nat.mul_add, hlen, h1, h2, h3, h4, h5]
  omega

/-! ### The encoder's groups -/

theorem groupValue_lt (a b c : Byte) : groupValue a b c < 2 ^ 24 := by
  rw [groupValue_eq_add]
  omega

/-- The two digits of group 0 pack to its byte. -/
theorem concatValue_encGroup0 (b : Byte) : concatValue (encGroup0 b) = b.toNat := by
  simp [encGroup0, concatValue_cons]
  omega

/-- The four digits of a group pack to its three bytes. -/
theorem concatValue_encGroup (a b c : Byte) :
    concatValue (encGroup a b c) = groupValue a b c := by
  have hlt := groupValue_lt a b c
  simp [encGroup, concatValue_cons]
  omega

/-- The 22 digits of `Enc(U)` pack to the number `U`. -/
theorem concatValue_encDigits (u : ByteVec) : concatValue (encDigits u) = u.toNat := by
  have hgroup (g : Nat) (h1 : 1 ≤ g) (h5 : g ≤ 5) :
      concatValue (encGroup (byteAt u (3 * g - 2)) (byteAt u (3 * g - 1)) (byteAt u (3 * g)))
        = u.toNat / 2 ^ (120 - 24 * g) % 2 ^ 24 := by
    rw [concatValue_encGroup, groupValue_eq_add, bytesOfGroup_toNat u g h1 h5]
  rw [encDigits, concatValue_append_groups u.toNat _ _ (fun _ => rfl) hgroup,
    concatValue_encGroup0, byteAt_toNat]
  omega

theorem encVec_eq_setWidth (u : ByteVec) : encVec u = u.setWidth 132 := by
  rw [encVec, packDigits, concatValue_encDigits, BitVec.ofNat_toNat]

/-! ### The decoder's groups -/

/-- Two digits pack to a byte, their top four bits dropped. -/
theorem concatValue_decGroup0 (a b : Digit) :
    concatValue (decGroup0 a b) = (a.toNat * 64 + b.toNat) % 256 := by
  simp [decGroup0, concatValue_cons]

/-- The three bytes of a group pack to its four digits. -/
theorem concatValue_decGroup (a b c d : Digit) :
    concatValue (decGroup a b c d) =
      ((a.toNat * 64 + b.toNat) * 64 + c.toNat) * 64 + d.toNat := by
  have hmask (n : Nat) : n &&& 0xFF = n % 256 := Nat.and_two_pow_sub_one_eq_mod n 8
  simp [decGroup, concatValue_cons, hmask, Nat.shiftRight_eq_div_pow]
  omega

/-- The 16 bytes of `Dec(G)` pack to the low 128 bits of the number `G`. -/
theorem concatValue_decBytes (g : DigitVec) : concatValue (decBytes g) = g.toNat % 2 ^ 128 := by
  have hgroup (k : Nat) (h1 : 1 ≤ k) (h5 : k ≤ 5) :
      concatValue (decGroup (digitAt g (4 * k - 2)) (digitAt g (4 * k - 1)) (digitAt g (4 * k))
        (digitAt g (4 * k + 1))) = g.toNat / 2 ^ (120 - 24 * k) % 2 ^ 24 := by
    rw [concatValue_decGroup, digitsOfGroup_toNat g k h1 h5]
  rw [decBytes, concatValue_append_groups g.toNat _ _ (fun _ => rfl) hgroup,
    concatValue_decGroup0, digitAt_toNat, digitAt_toNat]
  omega

theorem decVec_toNat (g : DigitVec) : (decVec g).toNat = g.toNat % 2 ^ 128 := by
  rw [decVec, packBytes, concatValue_decBytes, BitVec.toNat_ofNat, Nat.mod_mod]

/-! ### The obligations -/

/-- Settles O32: packing the encoder's groups gives back the number `U`, so nothing but the width
changes. -/
theorem encIsZeroExtension : Obligations.EncIsZeroExtension := by
  intro u
  rw [encVec_eq_setWidth]
  refine ⟨rfl, ?_, ?_⟩
  · apply BitVec.eq_of_toNat_eq
    simp [Nat.shiftRight_eq_div_pow]
    omega
  · apply BitVec.eq_of_toNat_eq
    simp
    omega

/-- Settles O38: packing the decoder's groups gives the low 128 bits of the number `G`. -/
theorem decDropsTopFourBits : Obligations.DecDropsTopFourBits := by
  intro g
  refine ⟨BitVec.eq_of_toNat_eq ?_, decVec_toNat g⟩
  rw [decVec_toNat]
  simp

end Sys2Proof.Machine

/-!
What the block's state does at a clock edge and under a command (10_state.md section 3): one
equation for each kind of edge with `rst` released, and one account of how a command ends that says
which command raises which error, from every state alike.
-/

namespace Sys2Proof.Machine

/-! ### The command port at one edge -/

theorem State.cmdReady_eq_true_iff (s : State) :
    s.cmdReady = true ↔ s.pins.rst = false ∧ s.inFlight = none := by
  simp [State.cmdReady]

/-- A command in flight holds `cmd_ready` at 0 (10_state.md R36). -/
theorem State.cmdReady_of_inFlight {s : State} {f : InFlight} (h : s.inFlight = some f) :
    s.cmdReady = false := by
  simp [State.cmdReady, h]

/-- Emptying a command port that is empty changes nothing. -/
theorem State.withInFlight_none_of_empty {s : State} (h : s.inFlight = none) :
    s.withInFlight none = s := by
  rw [State.withInFlight, ← h]

/-- Once an edge is used up, the host goes on to drive the rest of its list. -/
@[simp] theorem State.popEdge_withInputs_cons (s : State) (e : Edge) (es : List Edge) :
    (s.withInputs (e :: es)).popEdge = s.withInputs es := rfl

theorem step_of_rst_released {s : State} (h : s.pins.rst = false) :
    step s = commandEdge s.pins.cmd s.popEdge := by
  simp [step, clockEdge, h]

theorem commandEdge_none_of_empty {s : State} (h : s.inFlight = none) :
    commandEdge none s = .next s := by
  simp [commandEdge, h]

theorem commandEdge_some_of_empty {s : State} (h : s.inFlight = none) (c : HostCommand) :
    commandEdge (some c) s = acceptCommand c s := by
  simp [commandEdge, h]

/-- With a command in flight the edge does not look at the command port
(70_reset_and_hazards.md R191). -/
theorem commandEdge_of_inFlight {s : State} {f : InFlight} (h : s.inFlight = some f)
    (c c' : Option HostCommand) : commandEdge c s = commandEdge c' s := by
  obtain ⟨w, n⟩ := f
  cases n with
  | zero => simp [commandEdge, h]
  | succ n => simp [commandEdge, h]

/-- A ready block does at the edge what its command port asks for. -/
theorem step_of_cmdReady {s : State} (h : s.cmdReady = true) :
    step s = commandEdge s.pins.cmd s.popEdge :=
  step_of_rst_released ((State.cmdReady_eq_true_iff s).mp h).1

/-- A word that is executed as soon as it is accepted leaves an empty port as it was. -/
theorem completeWord_of_empty {s : State} (h : s.inFlight = none) (w : CmdWord) :
    completeWord w s = exec (decode w) s := by
  rw [completeWord, State.withInFlight_none_of_empty h]

/-- An operand that is the host's own data is accepted as part of its word. -/
theorem acceptCommand_data (s : State) (op : Opcode) (d : Data) :
    acceptCommand { op := op, operand := .data d } s = acceptWord (mkWord op d) s := rfl

theorem acceptWord_of_latency_zero {s : State} {op : Opcode} (d : Data)
    (h : Config.latency op = 0) : acceptWord (mkWord op d) s = completeWord (mkWord op d) s := by
  simp [acceptWord, Laws.opField_mkWord, h]

theorem acceptWord_of_latency_succ {s : State} {op : Opcode} {n : Nat} (d : Data)
    (h : Config.latency op = n + 1) : acceptWord (mkWord op d) s =
      .next (s.withInFlight (some { word := mkWord op d, remaining := n })) := by
  simp [acceptWord, Laws.opField_mkWord, h]

/-! ### How a command ends -/

theorem execS2d_of_hit {c : CharCode} {d : Digit} (h : lutRev c = some d) (s : State) :
    execS2d c s = .next (s.completeOk d) := by
  simp [execS2d, h]

theorem execS2d_of_miss {c : CharCode} (h : lutRev c = none) (s : State) :
    execS2d c s = .next (s.raiseError .invalidSymbol) := by
  simp [execS2d, h]

theorem execDecs_of_hits {cs : CharVec} {ds : List Digit} (h : lutRevAll (charsOf cs) = some ds)
    (s : State) : execDecs cs s = .next (s.completeOk (decVec (packDigits ds))) := by
  simp [execDecs, h]

theorem execDecs_of_miss {cs : CharVec} (h : lutRevAll (charsOf cs) = none) (s : State) :
    execDecs cs s = .next (s.raiseError .invalidSymbol) := by
  simp [execDecs, h]

/-- A command has one next state. -/
theorem exec_next_unique {i : Instr} {s t u : State} (h : exec i s = .next t)
    (h' : exec i s = .next u) : t = u :=
  Host.Outcome.next.inj (h.symm.trans h')

/-- The commands of the reserved opcodes (30_encoding.md R75). -/
abbrev IsReserved (i : Instr) : Prop := i = .reserved0 ∨ i = .reserved7

/-- The commands whose operand is characters, which may miss (60_exceptions.md R162). -/
abbrev ReadsCharacters (i : Instr) : Prop := (∃ c, i = .s2d c) ∨ ∃ cs, i = .decs cs

/-- A command completes with one result from every state, or raises one error from every state; and
each error comes from its own commands only (60_exceptions.md R161 to R163). -/
theorem exec_uniform (i : Instr) :
    (¬ IsReserved i ∧ ∃ (w : Nat) (v : BitVec w), ∀ s, exec i s = .next (s.completeOk v)) ∨
    (ReadsCharacters i ∧ ∀ s, exec i s = .next (s.raiseError .invalidSymbol)) ∨
    (IsReserved i ∧ ∀ s, exec i s = .next (s.raiseError .illegalOp)) := by
  cases i with
  | reserved0 => exact .inr (.inr ⟨.inl rfl, fun _ => rfl⟩)
  | d2s d => exact .inl ⟨by simp, _, lutFwd d, fun _ => rfl⟩
  | s2d c =>
    cases h : lutRev c with
    | some d => exact .inl ⟨by simp, _, d, execS2d_of_hit h⟩
    | none => exact .inr (.inl ⟨.inl ⟨c, rfl⟩, execS2d_of_miss h⟩)
  | enc u => exact .inl ⟨by simp, _, encVec u, fun _ => rfl⟩
  | dec g => exact .inl ⟨by simp, _, decVec g, fun _ => rfl⟩
  | encs u =>
    exact .inl ⟨by simp, _, packChars ((digitsOf (encVec u)).map lutFwd), fun _ => rfl⟩
  | decs cs =>
    cases h : lutRevAll (charsOf cs) with
    | some ds => exact .inl ⟨by simp, _, decVec (packDigits ds), execDecs_of_hits h⟩
    | none => exact .inr (.inl ⟨.inr ⟨cs, rfl⟩, execDecs_of_miss h⟩)
  | reserved7 => exact .inr (.inr ⟨.inr rfl, fun _ => rfl⟩)

/-- A character operand does not belong to a reserved opcode. -/
theorem ReadsCharacters.not_isReserved {i : Instr} (h : ReadsCharacters i) : ¬ IsReserved i := by
  obtain ⟨c, rfl⟩ | ⟨cs, rfl⟩ := h <;> simp

/-! ### Legal values of `STATUS` -/

@[simp] theorem State.completeOk_status {w : Nat} (s : State) (v : BitVec w) :
    (s.completeOk v).status = 0b100#3 := by
  simp [State.status]

@[simp] theorem State.raiseError_status (s : State) (e : ErrorCause) :
    (s.raiseError e).status = 0#1 ++ e.code := by
  simp [State.status]

@[simp] theorem State.applyReset_status (s : State) : s.applyReset.status = 0b000#3 := by
  simp [State.status]

theorem State.completeOk_legal {w : Nat} (s : State) (v : BitVec w) : (s.completeOk v).Legal :=
  .inr (.inl (s.completeOk_status v))

theorem State.raiseError_legal (s : State) (e : ErrorCause) : (s.raiseError e).Legal := by
  cases e with
  | invalidSymbol => exact .inr (.inr (.inl (s.raiseError_status _)))
  | illegalOp => exact .inr (.inr (.inr (s.raiseError_status _)))

theorem State.applyReset_legal (s : State) : s.applyReset.Legal :=
  .inl s.applyReset_status

/-- Legality is a matter of `ERR` and `RVALID` alone. -/
theorem State.Legal.congr {s t : State} (hs : s.Legal) (he : s.err = t.err)
    (hv : s.rvalid = t.rvalid) : t.Legal := by
  rw [State.Legal, ← State.status_congr he hv]
  exact hs

/-- A command leaves a legal `STATUS` whatever it finds: no command reads the registers. -/
theorem exec_legal {i : Instr} {s t : State} (h : exec i s = .next t) : t.Legal := by
  obtain ⟨w, v, hx⟩ | ⟨e, hx⟩ := exec_cases i s
  · rw [exec_next_unique h hx]
    exact s.completeOk_legal v
  · rw [exec_next_unique h hx]
    exact s.raiseError_legal e

/-! ### The obligations -/

/-- Settles O21: a reset edge and a command write a legal `STATUS`, and every other edge leaves
`ERR` and `RVALID` as they were. -/
theorem stepKeepsStatusLegal : Obligations.StepKeepsStatusLegal := by
  intro s t hs h
  obtain ⟨-, rfl⟩ | ⟨-, -, -, rfl⟩ | ⟨w, n, -, -, rfl⟩ | ⟨c, d, n, -, -, -, -, -, rfl⟩ |
    ⟨w, -, hx, -⟩ := step_cases h
  · exact s.popEdge.applyReset_legal
  · exact hs.congr rfl rfl
  · exact hs.congr rfl rfl
  · exact hs.congr rfl rfl
  · exact exec_legal hx

/-- Settles O7, by the two cases of `LAT(op)`. -/
theorem readyBlockAcceptsCommand : Obligations.ReadyBlockAcceptsCommand := by
  intro s op d hready hcmd
  have hempty : s.popEdge.inFlight = none := ((State.cmdReady_eq_true_iff s).mp hready).2
  rw [step_of_cmdReady hready, hcmd, commandEdge_some_of_empty hempty, acceptCommand_data]
  cases hl : Config.latency op with
  | zero => rw [acceptWord_of_latency_zero d hl, completeWord_of_empty hempty]; rfl
  | succ n => rw [acceptWord_of_latency_succ d hl]; rfl

/-- Settles O8: the edge of a busy block does not look at the command port. -/
theorem busyBlockIgnoresCommandPort : Obligations.BusyBlockIgnoresCommandPort := by
  intro s f c c' es hf
  refine ⟨State.cmdReady_of_inFlight hf, ?_⟩
  rw [step_of_rst_released rfl, step_of_rst_released rfl, State.popEdge_withInputs_cons,
    State.popEdge_withInputs_cons]
  exact commandEdge_of_inFlight (s := s.withInputs es) hf c c'

/-- Settles O17: a completion and an error write only the registers. -/
theorem everyCommandCompletes : Obligations.EveryCommandCompletes := by
  intro i s
  obtain ⟨w, v, hx⟩ | ⟨e, hx⟩ := exec_cases i s
  · exact ⟨_, hx, s.completeOk_inFlight v, s.completeOk_inputs v⟩
  · exact ⟨_, hx, s.raiseError_inFlight e, s.raiseError_inputs e⟩

/-- Settles O18: the same result is completed with, or the same error raised, from both states. -/
theorem outcomeDependsOnCommandAlone : Obligations.OutcomeDependsOnCommandAlone := by
  intro i s s' t t' h h'
  obtain ⟨-, w, v, hx⟩ | ⟨-, hx⟩ | ⟨-, hx⟩ := exec_uniform i
  · rw [exec_next_unique h (hx s), exec_next_unique h' (hx s')]
    exact ⟨rfl, rfl, fun _ => rfl⟩
  · rw [exec_next_unique h (hx s), exec_next_unique h' (hx s')]
    simp
  · rw [exec_next_unique h (hx s), exec_next_unique h' (hx s')]
    simp

/-- Settles O19: the three ways a command ends have the codes 0, 1 and 2, and `RVALID` is 1 after
the first only. -/
theorem errorsAndTheirCommands : Obligations.ErrorsAndTheirCommands := by
  intro i s t h
  obtain ⟨hi, w, v, hx⟩ | ⟨hi, hx⟩ | ⟨hi, hx⟩ := exec_uniform i
  · rw [exec_next_unique h (hx s)]
    exact ⟨by simp, iff_of_false (by simp) hi, by simp, by simp⟩
  · rw [exec_next_unique h (hx s)]
    exact ⟨fun _ => hi, iff_of_false (by simp) hi.not_isReserved, by simp, by simp⟩
  · rw [exec_next_unique h (hx s)]
    exact ⟨by simp, iff_of_true rfl hi, by simp, by simp⟩

/-- Settles O10: the edge is used up and nothing is accepted. -/
theorem idleEdgeChangesNothing : Obligations.IdleEdgeChangesNothing := by
  intro s hready hcmd
  have hempty : s.popEdge.inFlight = none := ((State.cmdReady_eq_true_iff s).mp hready).2
  rw [step_of_cmdReady hready, hcmd, commandEdge_none_of_empty hempty]
  rfl

/-- Settles O16, field by field of the reset state. -/
theorem resetValues : Obligations.ResetValues :=
  ⟨rfl, rfl, rfl, rfl, (State.cmdReady_eq_true_iff _).mpr ⟨rfl, rfl⟩, fun _ _ => rfl,
    (State.readRes_eq_error_iff _ _).mpr ⟨rfl, rfl⟩⟩

/-- Settles O22: `STATUS` is 000 after reset. -/
theorem resetStatusLegal : Obligations.ResetStatusLegal := .inl rfl

/-- Settles O27, by the two cases of the reverse lookup. -/
theorem symbolLutPorts : Obligations.SymbolLutPorts := by
  refine ⟨fun _ => rfl, fun c d hit => ?_, fun c miss => ?_⟩
  · simp [symbolLutRev, hit]
  · simp [symbolLutRev, miss]

end Sys2Proof.Machine

/-!
The symbol table (20_memory.md R51 to R53), the command port with a command in flight
(20_memory.md R59, R61), strings of 22 symbols (41_encoder.md R104, 42_decoder.md R120), and the
independence of the groups (20_memory.md R57).
-/

namespace Sys2Proof.Machine

/-! ### The symbol table -/

@[simp] theorem lutRev_lutFwd : ∀ i : Digit, lutRev (lutFwd i) = some i := by decide

/-- A hit is the place of the code in the table (20_memory.md R52). -/
theorem lutFwd_of_lutRev {c : CharCode} {i : Digit} (h : lutRev c = some i) : lutFwd i = c := by
  obtain ⟨n, hfind, rfl⟩ := Option.map_eq_some_iff.mp h
  obtain ⟨hn, hc, -⟩ := List.findIdx?_eq_some_iff_getElem.mp hfind
  have hi : (BitVec.ofNat 6 n).toNat = n :=
    BitVec.toNat_ofNat n 6 ▸ Nat.mod_eq_of_lt (Nat.lt_of_lt_of_eq hn length_symbolTable)
  simpa [lutFwd, hi] using hc

theorem lutRev_eq_some_iff (c : CharCode) (i : Digit) : lutRev c = some i ↔ c = lutFwd i := by
  constructor
  · exact fun hit => (lutFwd_of_lutRev hit).symm
  · rintro rfl
    exact lutRev_lutFwd i

theorem lutFwd_injective : Function.Injective lutFwd := by
  intro i j h
  simpa using congrArg lutRev h

/-- A code misses when it is the symbol of no digit (20_memory.md R52). -/
theorem lutRev_eq_none_iff (c : CharCode) : lutRev c = none ↔ ∀ d : Digit, lutFwd d ≠ c := by
  simp only [Option.eq_none_iff_forall_ne_some, ne_eq, lutRev_eq_some_iff, eq_comm (a := c)]

/-! ### A command in flight at one edge -/

theorem commandEdge_of_due {s : State} {w : CmdWord}
    (h : s.inFlight = some { word := w, remaining := 0 }) (c : Option HostCommand) :
    commandEdge c s = exec (decode w) (s.withInFlight none) := by
  simp [commandEdge, completeWord, h]

theorem commandEdge_of_waiting {s : State} {w : CmdWord} {n : Nat}
    (h : s.inFlight = some { word := w, remaining := n + 1 }) (c : Option HostCommand) :
    commandEdge c s = .next (s.withInFlight (some { word := w, remaining := n })) := by
  simp [commandEdge, h]

/-! ### Strings of 22 symbols -/

/-- The operand a command left in `RES`, read back at its own width. -/
theorem extractLsb'_setWidth_data {w : Nat} (v : BitVec w) (h : w ≤ 176) :
    (v.setWidth 176).extractLsb' 0 w = v := by
  rw [BitVec.extractLsb'_setWidth_of_le (by omega), BitVec.extractLsb'_eq_self]

theorem packDigits_digitsOf (g : DigitVec) : packDigits (digitsOf g) = g := by
  apply digitVec_ext
  intro k hk
  rw [digitAt_packDigits _ (length_digitsOf g) k hk]
  simp [digitsOf]

/-- A character of a packed string of symbols is the symbol of its digit (41_encoder.md R104). -/
theorem charAt_packChars_symbols (g : DigitVec) {k : Nat} (hk : k < 22) :
    charAt (packChars ((digitsOf g).map lutFwd)) k = lutFwd (digitAt g k) := by
  rw [charAt_packChars _ (by simp) k hk]
  simp [digitsOf]

/-- The reverse lookup of a string of symbols finds its digits (42_decoder.md R120). -/
theorem lutRevAll_charsOf_symbols {cs : CharVec} {g : DigitVec}
    (h : ∀ k < 22, lutFwd (digitAt g k) = charAt cs k) :
    lutRevAll (charsOf cs) = some (digitsOf g) := by
  rw [lutRevAll_eq_some_iff, charsOf, digitsOf, List.map_map, List.map_map, List.map_inj_left]
  intro k hk
  simp [← h k (List.mem_range.mp hk)]

/-- `DECS` on a string of symbols completes with the decoded digits (42_decoder.md R120). -/
theorem execDecs_of_symbols {cs : CharVec} {g : DigitVec}
    (h : ∀ k < 22, lutFwd (digitAt g k) = charAt cs k) (s : State) :
    execDecs cs s = .next (s.completeOk (decVec g)) := by
  rw [execDecs_of_hits (lutRevAll_charsOf_symbols h), packDigits_digitsOf]

/-- `Dec` undoes `Enc` (42_decoder.md R118). -/
theorem decVec_encVec (u : ByteVec) : decVec (encVec u) = u := by
  apply BitVec.eq_of_toNat_eq
  rw [decVec_toNat, encVec_eq_setWidth, BitVec.toNat_setWidth]
  omega

/-! ### Canonical digit vectors -/

/-- The four top bits are clear when the number fits the other 128 (42_decoder.md R117). -/
theorem canonicalDigits_iff_toNat_lt (g : DigitVec) : canonicalDigits g ↔ g.toNat < 2 ^ 128 := by
  rw [canonicalDigits, ← BitVec.toNat_inj, BitVec.extractLsb'_toNat, Nat.shiftRight_eq_div_pow]
  simp only [BitVec.toNat_ofNat]
  omega

theorem canonicalDigits_iff_digit0_le (g : DigitVec) :
    canonicalDigits g ↔ (digitAt g 0).toNat ≤ 3 := by
  rw [canonicalDigits_iff_toNat_lt, digitAt_toNat]
  omega

/-- The first four symbols are `0`, `1`, `2` and `3` (20_memory.md R51). -/
theorem lutFwd_mem_0123_iff : ∀ d : Digit,
    d.toNat ≤ 3 ↔
      lutFwd d = 0x30#8 ∨ lutFwd d = 0x31#8 ∨ lutFwd d = 0x32#8 ∨ lutFwd d = 0x33#8 := by
  decide

/-! ### The groups -/

/-- Element `j` of block `i`, where the blocks have `n` elements each. -/
theorem getElem?_flatMap_blocks {α β : Type} {n j : Nat} (f : α → List β)
    (hlen : ∀ x, (f x).length = n) (hj : j < n) (xs : List α) (i : Nat) :
    (xs.flatMap f)[n * i + j]? = xs[i]?.bind fun x => (f x)[j]? := by
  induction xs generalizing i with
  | nil => simp
  | cons x xs ih =>
    rw [List.flatMap_cons]
    cases i with
    | zero => simp [List.getElem?_append_left, hlen, hj]
    | succ i =>
      have e : n * (i + 1) + j = (f x).length + (n * i + j) := by rw [hlen]; ring
      rw [e, List.getElem?_append_right (Nat.le_add_right _ _), Nat.add_sub_cancel_left, ih,
        List.getElem?_cons_succ]

/-- Element `j` of group `g`, where the groups 1 to 5, of `n` elements each, stand after group 0
(20_memory.md R57). -/
theorem getElem?_append_groups {α : Type} {m n g j : Nat} {group0 : List α}
    {group : Nat → List α} (hlen0 : group0.length = m) (hlen : ∀ i, (group i).length = n)
    (h1 : 1 ≤ g) (h5 : g ≤ 5) (hj : j < n) :
    (group0 ++ [1, 2, 3, 4, 5].flatMap group)[m + (n * (g - 1) + j)]? = (group g)[j]? := by
  have hg : [1, 2, 3, 4, 5][g - 1]? = some g := by interval_cases g <;> rfl
  rw [← hlen0, List.getElem?_append_right (Nat.le_add_right _ _), Nat.add_sub_cancel_left,
    getElem?_flatMap_blocks group hlen hj, hg, Option.bind_some]

/-- The digits of group 0 are what the encoder makes of `byte[0]` (41_encoder.md R100). -/
theorem getElem?_encGroup0 (u : ByteVec) {k : Nat} (hk : k < 2) :
    (encGroup0 (byteAt u 0))[k]? = some (digitAt (encVec u) k) := by
  rw [digitAt_encVec u k (by omega), ← List.getElem?_eq_getElem, encDigits,
    List.getElem?_append_left hk]

/-- The digits of group `g` are what the encoder makes of its three bytes (41_encoder.md R100). -/
theorem getElem?_encGroup (u : ByteVec) {g j : Nat} (h1 : 1 ≤ g) (h5 : g ≤ 5) (hj : j < 4) :
    (encGroup (byteAt u (3 * g - 2)) (byteAt u (3 * g - 1)) (byteAt u (3 * g)))[j]?
      = some (digitAt (encVec u) (4 * g - 2 + j)) := by
  have e : 4 * g - 2 + j = 2 + (4 * (g - 1) + j) := by omega
  rw [digitAt_encVec u _ (by omega), ← List.getElem?_eq_getElem, e, encDigits,
    getElem?_append_groups ?_ ?_ h1 h5 hj]
  · rfl
  · exact fun _ => rfl

/-- `byte[0]` is what the decoder makes of the digits of group 0 (42_decoder.md R115). -/
theorem getElem?_decGroup0 (x : DigitVec) :
    (decGroup0 (digitAt x 0) (digitAt x 1))[0]? = some (byteAt (decVec x) 0) := by
  rw [byteAt_decVec x 0 (by decide)]
  rfl

/-- The bytes of group `g` are what the decoder makes of its four digits (42_decoder.md R115). -/
theorem getElem?_decGroup (x : DigitVec) {g j : Nat} (h1 : 1 ≤ g) (h5 : g ≤ 5) (hj : j < 3) :
    (decGroup (digitAt x (4 * g - 2)) (digitAt x (4 * g - 1)) (digitAt x (4 * g))
      (digitAt x (4 * g + 1)))[j]? = some (byteAt (decVec x) (3 * g - 2 + j)) := by
  have e : 3 * g - 2 + j = 1 + (3 * (g - 1) + j) := by omega
  rw [byteAt_decVec x _ (by omega), ← List.getElem?_eq_getElem, e, decBytes,
    getElem?_append_groups ?_ ?_ h1 h5 hj]
  · rfl
  · exact fun _ => rfl

/-! ### The obligations -/

/-- Settles O45: `DECS` finds the digits of `Enc(U)` behind the symbols of `ENCS`, and `Dec` undoes
`Enc`. -/
theorem decsUndoesEncs : Obligations.DecsUndoesEncs := by
  intro u s
  have hdecs (t : State) :
      execDecs (packChars ((digitsOf (encVec u)).map lutFwd)) t = .next (t.completeOk u) := by
    rw [execDecs_of_symbols fun k hk => (charAt_packChars_symbols (encVec u) hk).symm,
      decVec_encVec]
  exact ⟨_, _, rfl, hdecs _, rfl, rfl, rfl⟩

/-- Settles O30: each command leaves in `RES` the operand of the other, whose lookup undoes its
own. -/
theorem d2sAndS2dAreInverse : Obligations.D2sAndS2dAreInverse := by
  constructor
  · intro i s
    refine ⟨_, (s.completeOk (lutFwd i)).completeOk i, rfl, ?_, rfl, rfl⟩
    rw [State.completeOk_res, extractLsb'_setWidth_data _ (by decide)]
    exact execS2d_of_hit (lutRev_lutFwd i) _
  · intro c d s hit
    refine ⟨_, (s.completeOk d).completeOk c, execS2d_of_hit hit s, ?_, rfl, rfl⟩
    rw [State.completeOk_res, extractLsb'_setWidth_data _ (by decide), ← lutFwd_of_lutRev hit]
    rfl

/-- Settles O36: a character of `ENCS` is the symbol of its digit, and `S2D` looks it up. -/
theorem encsStaysInAlphabet : Obligations.EncsStaysInAlphabet := by
  intro u s k hk
  refine ⟨_, _, (s.completeOk (packChars ((digitsOf (encVec u)).map lutFwd))).completeOk
    (digitAt (encVec u) k), rfl, rfl, ?_⟩
  rw [State.completeOk_res, State.completeOk_res, BitVec.setWidth_eq,
    extractLsb'_setWidth_data _ (by decide), charAt_packChars_symbols _ hk]
  exact ⟨rfl, by simp, execS2d_of_hit (lutRev_lutFwd _) _, rfl, rfl⟩

/-- Settles O39: each form says that the number `G` is below `2 ^ 128`, which its first digit alone
decides. -/
theorem canonicalForms : Obligations.CanonicalForms := by
  refine ⟨fun g => ⟨?_, canonicalDigits_iff_digit0_le g, canonicalDigits_iff_toNat_lt g⟩,
    fun cs g h => ?_⟩
  · rw [canonicalDigits_iff_digit0_le]
    omega
  · rw [canonicalDigits_iff_digit0_le, ← h 0 (by decide)]
    exact lutFwd_mem_0123_iff _

/-- Settles O44: the elements of a group are a function of the group's own elements on the other
side. -/
theorem groupsDoNotInteract : Obligations.GroupsDoNotInteract := by
  refine ⟨fun u v h k hk => ?_, fun u v g h1 h5 h j hj => ?_, fun a b h => ?_,
    fun a b g h1 h5 h j hj => ?_⟩ <;> apply Option.some.inj
  · rw [← getElem?_encGroup0 u hk, ← getElem?_encGroup0 v hk, h]
  · have e1 : 3 * g - 2 + 1 = 3 * g - 1 := by omega
    have e2 : 3 * g - 2 + 2 = 3 * g := by omega
    have b0 := h 0 (by decide)
    have b1 := h 1 (by decide)
    have b2 := h 2 (by decide)
    simp only [Nat.add_zero, e1, e2] at b0 b1 b2
    rw [← getElem?_encGroup u h1 h5 hj, ← getElem?_encGroup v h1 h5 hj, b0, b1, b2]
  · rw [← getElem?_decGroup0 a, ← getElem?_decGroup0 b, h 0 (by decide), h 1 (by decide)]
  · have e1 : 4 * g - 2 + 1 = 4 * g - 1 := by omega
    have e2 : 4 * g - 2 + 2 = 4 * g := by omega
    have e3 : 4 * g - 2 + 3 = 4 * g + 1 := by omega
    have d0 := h 0 (by decide)
    have d1 := h 1 (by decide)
    have d2 := h 2 (by decide)
    have d3 := h 3 (by decide)
    simp only [Nat.add_zero, e1, e2, e3] at d0 d1 d2 d3
    rw [← getElem?_decGroup a h1 h5 hj, ← getElem?_decGroup b h1 h5 hj, d0, d1, d2, d3]

/-- Settles O6: a command that is due completes, and `withFetchWord` makes its word due. -/
theorem stepRunsTheDecodedCommand : Obligations.StepRunsTheDecodedCommand := by
  have run (s : State) (w : CmdWord) (hf : s.inFlight = some { word := w, remaining := 0 })
      (hr : s.pins.rst = false) : step s = exec (decode w) (s.popEdge.withInFlight none) := by
    rw [step_of_rst_released hr]
    exact commandEdge_of_due (s := s.popEdge) hf _
  exact ⟨run, fun s nbits w => run (s.withFetchWord nbits w) _ rfl rfl⟩

/-- Settles O9: an edge of waiting only counts down. -/
theorem waitingEdgeKeepsRegisters : Obligations.WaitingEdgeKeepsRegisters := by
  intro s w n hf hr
  rw [step_of_rst_released hr]
  exact commandEdge_of_waiting (s := s.popEdge) hf _

/-- Settles O24, on each of the 64 entries of the table. -/
theorem tableForwardClosedForm : Obligations.TableForwardClosedForm := by
  unfold Obligations.TableForwardClosedForm
  decide

/-- Settles O26: the reverse direction undoes the forward one, which is injective therefore. -/
theorem tableIsBijection : Obligations.TableIsBijection :=
  ⟨lutRev_lutFwd, fun _ _ => lutFwd_of_lutRev, fun _ _ h => lutFwd_injective h⟩

/-- Settles O25: in each range of codes the digit is the one whose symbol, by the closed form of the
forward direction, is that code; outside them no digit has it. -/
theorem tableReverseClosedForm : Obligations.TableReverseClosedForm := by
  refine ⟨lutRev_eq_some_iff, fun c => ?_⟩
  have hit (i : Digit) (h : c.toNat = (lutFwd i).toNat) : lutRev c = some i :=
    (lutRev_eq_some_iff c i).mpr (BitVec.eq_of_toNat_eq h)
  split_ifs with h1 h2 h3 h4 h5
  · exact hit _ (by rw [tableForwardClosedForm, BitVec.toNat_ofNat]; split_ifs <;> omega)
  · exact hit _ (by rw [tableForwardClosedForm, BitVec.toNat_ofNat]; split_ifs <;> omega)
  · exact hit _ (by rw [tableForwardClosedForm, BitVec.toNat_ofNat]; split_ifs <;> omega)
  · exact hit 62 h4
  · exact hit 63 h5
  · rw [lutRev_eq_none_iff]
    rintro d rfl
    have hd := tableForwardClosedForm d
    split_ifs at hd <;> omega

end Sys2Proof.Machine

/-!
The command word (30_encoding.md R70 to R73, R76, R77). Encoding and decoding work on the two fields
of a word, so each statement about words is one about an opcode and a `data` field.
-/

namespace Sys2Proof.Machine

/-! ### A word and its fields -/

/-- A command word is `op ++ data` of its own fields (30_encoding.md R70). -/
theorem mkWord_fields (w : CmdWord) : mkWord (opField w) (dataField w) = w :=
  BitVec.extractLsb'_append_extractLsb'

theorem decode_mkWord (op : Opcode) (d : Data) : decode (mkWord op d) = decodeFields op d := by
  rw [decode, Laws.opField_mkWord, Laws.dataField_mkWord]

/-- A mask acts on the two fields apart. -/
theorem mkWord_and_mkWord (op op' : Opcode) (d d' : Data) :
    mkWord op d &&& mkWord op' d' = mkWord (op &&& op') (d &&& d') :=
  BitVec.and_append

/-- The mask of the opcode table keeps the opcode and clears `data` (30_encoding.md R71). -/
theorem and_rowMask (w : CmdWord) : w &&& rowMask = mkWord (opField w) 0#176 := by
  have hmask : rowMask = mkWord (BitVec.allOnes 3) 0#176 := by decide
  calc w &&& rowMask
      = mkWord (opField w) (dataField w) &&& mkWord (BitVec.allOnes 3) 0#176 := by
        rw [mkWord_fields, hmask]
    _ = mkWord (opField w) 0#176 := by
        rw [mkWord_and_mkWord, BitVec.and_allOnes, BitVec.and_zero]

/-- The bits a command reads are its opcode and the low bits of `data` (30_encoding.md R72). -/
theorem readMask_eq_mkWord (i : Instr) :
    i.readMask = mkWord (BitVec.allOnes 3) (BitVec.ofNat 176 (2 ^ i.operandWidth - 1)) := by
  cases i <;> rfl

/-! ### The opcode -/

/-- The eight opcodes (30_encoding.md R71). -/
theorem opcode_cases : ∀ op : Opcode,
    op = 0b000#3 ∨ op = 0b001#3 ∨ op = 0b010#3 ∨ op = 0b011#3 ∨
      op = 0b100#3 ∨ op = 0b101#3 ∨ op = 0b110#3 ∨ op = 0b111#3 := by
  decide

/-- "Its opcode alone selects the operation" (30_encoding.md R76). -/
theorem opcode_decodeFields (op : Opcode) (d : Data) : (decodeFields op d).opcode = op := by
  obtain rfl | rfl | rfl | rfl | rfl | rfl | rfl | rfl := opcode_cases op <;> rfl

theorem opcode_decode (w : CmdWord) : (decode w).opcode = opField w :=
  opcode_decodeFields _ _

/-- The rows of the opcode table are numbered by their opcodes (30_encoding.md R71). -/
theorem row_eq_toNat_opcode (i : Instr) : i.row = i.opcode.toNat := by
  cases i <;> rfl

/-- The row of an opcode holds it above a `data` of zeros (30_encoding.md R71). -/
theorem getElem?_rowMatch : ∀ op : Opcode, rowMatch[op.toNat]? = some (mkWord op 0#176) := by
  decide

theorem nodup_rowMatch : rowMatch.Nodup := by decide

/-! ### The operand -/

/-- A field read from the low bits of `data` and put back is `data` with the bits above it
cleared. -/
theorem setWidth_extractLsb'_eq_and (d : Data) {k : Nat} (hk : k ≤ 176) :
    (d.extractLsb' 0 k).setWidth 176 = d &&& BitVec.ofNat 176 (2 ^ k - 1) := by
  have hpow : 2 ^ k - 1 < 2 ^ 176 :=
    (Nat.sub_one_lt (by simp)).trans_le (Nat.pow_le_pow_right (by decide) hk)
  apply BitVec.eq_of_toNat_eq
  rw [BitVec.toNat_and, BitVec.toNat_ofNat, Nat.mod_eq_of_lt hpow, Nat.and_two_pow_sub_one_eq_mod,
    BitVec.toNat_setWidth_of_le hk, BitVec.extractLsb'_toNat, Nat.shiftRight_zero]

/-- The operand of a decoded command is `data` with its ignored bits cleared (30_encoding.md R72,
R73). -/
theorem data_decodeFields (op : Opcode) (d : Data) : (decodeFields op d).data =
    d &&& BitVec.ofNat 176 (2 ^ (decodeFields op d).operandWidth - 1) := by
  obtain rfl | rfl | rfl | rfl | rfl | rfl | rfl | rfl := opcode_cases op
  · exact BitVec.and_zero.symm
  · exact setWidth_extractLsb'_eq_and d (by decide)
  · exact setWidth_extractLsb'_eq_and d (by decide)
  · exact setWidth_extractLsb'_eq_and d (by decide)
  · exact setWidth_extractLsb'_eq_and d (by decide)
  · exact setWidth_extractLsb'_eq_and d (by decide)
  · exact (BitVec.setWidth_eq _).symm.trans (setWidth_extractLsb'_eq_and d le_rfl)
  · exact BitVec.and_zero.symm

/-- The field a command's operand was put into is read back as that operand (30_encoding.md R72). -/
theorem decodeFields_opcode_data (i : Instr) : decodeFields i.opcode i.data = i := by
  cases i with
  | reserved0 => rfl
  | d2s i => exact congrArg Instr.d2s (extractLsb'_setWidth_data i (by decide))
  | s2d c => exact congrArg Instr.s2d (extractLsb'_setWidth_data c (by decide))
  | enc u => exact congrArg Instr.enc (extractLsb'_setWidth_data u (by decide))
  | dec g => exact congrArg Instr.dec (extractLsb'_setWidth_data g (by decide))
  | encs u => exact congrArg Instr.encs (extractLsb'_setWidth_data u (by decide))
  | decs cs => exact congrArg Instr.decs BitVec.extractLsb'_eq_self
  | reserved7 => rfl

/-- Two words of one opcode that agree on the `k` bits its command reads have the same outcome
(30_encoding.md R73). -/
theorem completeWord_congr_operand {op : Opcode} {k : Nat} {command : BitVec k → Instr}
    (hread : ∀ d, decodeFields op d = command (d.extractLsb' 0 k)) {d d' : Data}
    (hd : d.extractLsb' 0 k = d'.extractLsb' 0 k) (s : State) :
    completeWord (op ++ d) s = completeWord (op ++ d') s := by
  have hdec : decode (mkWord op d) = decode (mkWord op d') := by
    rw [decode_mkWord, decode_mkWord, hread, hread, hd]
  exact congrArg (exec · (s.withInFlight none)) hdec

/-- What stands above the low bits does not show in them. -/
theorem extractLsb'_append_congr {m k : Nat} (h h' : BitVec m) (lo : BitVec k) :
    (h ++ lo).extractLsb' 0 k = (h' ++ lo).extractLsb' 0 k := by
  rw [BitVec.extractLsb'_append_eq_right, BitVec.extractLsb'_append_eq_right]

/-- A host that copies a valid `RES` presents its content (30_encoding.md R77). -/
theorem acceptCommand_res {s : State} (h : s.rvalid = true) (op : Opcode) :
    acceptCommand { op := op, operand := .res } s = acceptWord (mkWord op s.res) s := by
  have hres : s.hostOperand .res = .ok s.res :=
    (s.hostOperand_eq_ok_iff _ _).mpr (.inr ⟨rfl, h, rfl⟩)
  simp [acceptCommand, hres]

/-! ### The obligations -/

/-- Settles O5: both directions act on the opcode and on `data` apart, where a field put in place is
read back, and one read and put back has lost only the bits above it. -/
theorem decodeAndEncodeAgree : Obligations.DecodeAndEncodeAgree := by
  refine ⟨fun i => ?_, fun w => ?_⟩
  · rw [encode, decode_mkWord, decodeFields_opcode_data]
  · calc encode (decode w)
        = mkWord (opField w)
            (dataField w &&& BitVec.ofNat 176 (2 ^ (decode w).operandWidth - 1)) :=
          congrArg₂ mkWord (opcode_decode w) (data_decodeFields _ _)
      _ = mkWord (opField w) (dataField w) &&& (decode w).readMask := by
          rw [readMask_eq_mkWord, mkWord_and_mkWord, BitVec.and_allOnes]
      _ = w &&& (decode w).readMask := by rw [mkWord_fields]

/-- Settles O3: the masked word is the match of the decoded command's row, and the rows are
distinct. -/
theorem wordMatchesItsTableRowOnly : Obligations.WordMatchesItsTableRowOnly := by
  intro w n
  have hrow : rowMatch[(decode w).row]? = some (w &&& rowMask) := by
    rw [row_eq_toNat_opcode, opcode_decode, getElem?_rowMatch, and_rowMask]
  obtain ⟨hlt, -⟩ := List.getElem?_eq_some_iff.mp hrow
  constructor
  · intro h
    exact ((List.getElem?_inj hlt nodup_rowMatch).mp (hrow.trans h.symm)).symm
  · rintro rfl
    exact hrow

/-- Settles O4: the decoder reads the operand field alone, which is empty for a reserved opcode. -/
theorem bitsAboveOperandAreIgnored : Obligations.BitsAboveOperandAreIgnored := by
  intro s
  refine ⟨fun h h' lo => ?_, fun h h' lo => ?_, fun h h' lo => ?_, fun h h' lo => ?_,
    fun h h' lo => ?_, fun d d' => ?_, fun d d' => ?_⟩
  · exact completeWord_congr_operand (command := .d2s) (fun _ => rfl)
      (extractLsb'_append_congr h h' lo) s
  · exact completeWord_congr_operand (command := .s2d) (fun _ => rfl)
      (extractLsb'_append_congr h h' lo) s
  · exact completeWord_congr_operand (command := .enc) (fun _ => rfl)
      (extractLsb'_append_congr h h' lo) s
  · exact completeWord_congr_operand (command := .dec) (fun _ => rfl)
      (extractLsb'_append_congr h h' lo) s
  · exact completeWord_congr_operand (command := .encs) (fun _ => rfl)
      (extractLsb'_append_congr h h' lo) s
  · exact completeWord_congr_operand (k := 0) (command := fun _ => .reserved0) (fun _ => rfl)
      (Subsingleton.elim _ _) s
  · exact completeWord_congr_operand (k := 0) (command := fun _ => .reserved7) (fun _ => rfl)
      (Subsingleton.elim _ _) s

/-- Settles O2: the decoder reads `data` at the width of the opcode's field. -/
theorem operandIsLowBitsOfData : Obligations.OperandIsLowBitsOfData := by
  intro d
  refine ⟨decode_mkWord _ d, decode_mkWord _ d, decode_mkWord _ d, decode_mkWord _ d,
    decode_mkWord _ d, (decode_mkWord _ d).trans ?_⟩
  exact congrArg Instr.decs BitVec.extractLsb'_eq_self

/-- Settles O15: both forms are accepted as the same word. -/
theorem resOperandIsContentOfRes : Obligations.ResOperandIsContentOfRes := by
  intro s op es hvalid hempty
  have hstep (c : HostCommand) : step (s.withInputs (Edge.present c :: es))
      = acceptCommand c (s.withInputs es) := by
    rw [step_of_rst_released rfl, State.pins_withInputs_cons, State.popEdge_withInputs_cons]
    exact commandEdge_some_of_empty (s := s.withInputs es) hempty c
  rw [hstep, hstep, acceptCommand_res (s := s.withInputs es) hvalid, acceptCommand_data,
    State.withInputs_res]

end Sys2Proof.Machine

/-!
The commands of the symbol table, `D2S` and `S2D` (40_symbol_lut.md R90, R91).
-/

namespace Sys2Proof.Machine

/-- A raised error is the error entry of its code (60_exceptions.md R165). -/
theorem State.raiseError_errorEntry (s : State) (e : ErrorCause) :
    ErrorEntry e.code s (s.raiseError e) :=
  ⟨s.raiseError_err e, s.raiseError_rvalid e, s.raiseError_inFlight e, s.raiseError_inputs e⟩

/-! ### The obligations -/

/-- Settles O29: the lookup undoes the forward direction on the code of a digit, and misses every
code that no digit has. -/
theorem s2dGivesDigitOrInvalidSymbol : Obligations.S2dGivesDigitOrInvalidSymbol := by
  refine ⟨decode_mkWord _, fun d s => ?_, fun c s hc => ?_⟩
  · exact execS2d_of_hit (lutRev_lutFwd d) s
  · have miss : lutRev c = none := (lutRev_eq_none_iff c).mpr hc
    exact ⟨_, execS2d_of_miss miss s, s.raiseError_errorEntry .invalidSymbol⟩

/-- Settles O28: `D2S` is a good completion with the symbol, whatever the digit. -/
theorem d2sGivesSymbol : Obligations.D2sGivesSymbol :=
  ⟨decode_mkWord _, fun _ _ => rfl⟩

end Sys2Proof.Machine

/-!
The encoder and the round trips through it (41_encoder.md R100 to R104, 42_decoder.md R118, R122).
`Enc` after `Dec` keeps the low 128 bits of a digit vector and clears its four top bits, so it fixes
the canonical vectors and changes the first digit of every other one.
-/

namespace Sys2Proof.Machine

/-- A good completion leaves its result, extended to the width of `RES` (00_scope.md R11). -/
theorem State.completeOk_of_setWidth {w : Nat} {v : BitVec w} {r : Data} (h : v.setWidth 176 = r)
    (s : State) : s.completeOk v = { s with res := r, err := 0b00#2, rvalid := true } := by
  subst h
  rfl

/-! ### The digits of a group -/

/-- Digit `j` of a group of three bytes (41_encoder.md R100). -/
theorem getElem?_encGroup_eq_groupValue (a b c : Byte) {j : Nat} (hj : j < 4) :
    (encGroup a b c)[j]? = some (BitVec.ofNat 6 (groupValue a b c / 64 ^ (3 - j) % 64)) := by
  interval_cases j <;> rfl

/-! ### `Enc` after `Dec` -/

/-- A vector of 128 bits under `Enc` is canonical (41_encoder.md R102). -/
theorem canonicalDigits_encVec (u : ByteVec) : canonicalDigits (encVec u) := by
  obtain ⟨-, htop, -⟩ := encIsZeroExtension u
  exact htop

theorem encVec_decVec_eq_setWidth (g : DigitVec) :
    encVec (decVec g) = (g.extractLsb' 0 128).setWidth 132 := by
  rw [encVec_eq_setWidth, (decDropsTopFourBits g).1]

theorem encVec_decVec_toNat (g : DigitVec) :
    (encVec (decVec g)).toNat = g.toNat % 2 ^ 128 := by
  rw [encVec_eq_setWidth, BitVec.toNat_setWidth, decVec_toNat]
  omega

/-- `Enc` after `Dec` fixes the canonical digit vectors and no others (42_decoder.md R118). -/
theorem encVec_decVec_eq_self_iff (g : DigitVec) :
    encVec (decVec g) = g ↔ canonicalDigits g := by
  rw [canonicalDigits_iff_toNat_lt, ← BitVec.toNat_inj, encVec_decVec_toNat]
  omega

/-- The first digit loses the four top bits of the vector (42_decoder.md R118). -/
theorem digitAt_zero_encVec_decVec (g : DigitVec) :
    (digitAt (encVec (decVec g)) 0).toNat = (digitAt g 0).toNat % 4 := by
  rw [digitAt_toNat, digitAt_toNat, encVec_decVec_toNat]
  omega

/-- Every digit but the first lies in the low 126 bits of the vector (42_decoder.md R118). -/
theorem digitAt_encVec_decVec_of_pos (g : DigitVec) {k : Nat} (hk : 1 ≤ k) :
    digitAt (encVec (decVec g)) k = digitAt g k := by
  rw [encVec_decVec_eq_setWidth, digitAt, BitVec.extractLsb'_setWidth_of_le (by omega),
    BitVec.extractLsb'_extractLsb'_of_le (by omega), digitAt]

/-! ### Strings of symbols -/

/-- Digit vectors with the same symbols are the same (20_memory.md R53). -/
theorem packChars_symbols_eq_iff {cs : CharVec} {g : DigitVec}
    (h : ∀ k < 22, lutFwd (digitAt g k) = charAt cs k) (x : DigitVec) :
    packChars ((digitsOf x).map lutFwd) = cs ↔ x = g := by
  constructor
  · rintro rfl
    refine digitVec_ext x g fun k hk => lutFwd_injective ?_
    rw [h k hk, charAt_packChars_symbols x hk]
  · rintro rfl
    refine charVec_ext _ cs fun k hk => ?_
    rw [charAt_packChars_symbols x hk, h k hk]

/-! ### The obligations -/

/-- Settles O40: `Enc` is the zero extension and `Dec` keeps the low 128 bits. -/
theorem roundTripLaws : Obligations.RoundTripLaws := by
  refine ⟨decVec_encVec, encVec_decVec_eq_self_iff, fun g => ⟨?_, digitAt_zero_encVec_decVec g,
    fun k hk _ => digitAt_encVec_decVec_of_pos g hk⟩, fun u x => ⟨?_, ?_⟩⟩
  · rw [encVec_decVec_eq_setWidth, BitVec.setWidth_eq_append (by decide)]
    rfl
  · rw [(decDropsTopFourBits (x ++ u)).1, BitVec.extractLsb'_append_eq_right]
  · rw [canonicalDigits, BitVec.extractLsb'_append_eq_left]

/-- Settles O46: `ENCS` writes the symbols of `Enc(Dec(G))`, which spell the operand of `DECS` when
that vector is `G` itself. -/
theorem encsAfterDecsCanonicalises : Obligations.EncsAfterDecsCanonicalises := by
  intro cs g s h
  have hdigit0 : digitAt (encVec (decVec g)) 0 = BitVec.ofNat 6 ((digitAt g 0).toNat % 4) := by
    rw [← digitAt_zero_encVec_decVec, BitVec.ofNat_toNat, BitVec.setWidth_eq]
  refine ⟨_, (s.completeOk (decVec g)).completeOk
    (packChars ((digitsOf (encVec (decVec g))).map lutFwd)), execDecs_of_symbols h s, rfl, ?_⟩
  rw [State.completeOk_res, State.completeOk_res, BitVec.setWidth_eq,
    extractLsb'_setWidth_data _ (by decide)]
  refine ⟨rfl, rfl, ?_, ?_, fun k hk1 hk => ?_⟩
  · rw [packChars_symbols_eq_iff h, encVec_decVec_eq_self_iff]
  · rw [charAt_packChars_symbols _ (by decide), hdigit0]
  · rw [charAt_packChars_symbols _ hk, digitAt_encVec_decVec_of_pos g hk1, h k hk]

/-- Settles O31: the digits of a group are the base-64 digits of its value. -/
theorem encDigitsByGroup : Obligations.EncDigitsByGroup := by
  intro u
  have h0 := Option.some.inj (getElem?_encGroup0 u (k := 0) (by decide))
  have h1 := Option.some.inj (getElem?_encGroup0 u (k := 1) (by decide))
  refine ⟨?_, ?_, fun g j hg1 hg5 hj => ?_⟩
  · rw [← h0, BitVec.toNat_ofNat]
    omega
  · rw [← h1, BitVec.toNat_ofNat, Nat.mod_mod]
  · have hdigit := getElem?_encGroup u hg1 hg5 (Nat.lt_succ_of_le hj)
    rw [getElem?_encGroup_eq_groupValue _ _ _ (Nat.lt_succ_of_le hj)] at hdigit
    rw [← Option.some.inj hdigit, groupValue_eq_add, BitVec.toNat_ofNat, Nat.mod_mod]

/-- Settles O33: `Dec` undoes `Enc`, and on a canonical vector `Enc` undoes `Dec`. -/
theorem encImageIsCanonical : Obligations.EncImageIsCanonical := by
  refine ⟨fun u => ?_, fun u v h => ?_, fun g => ⟨?_, fun hg => ⟨decVec g, ?_⟩⟩⟩
  · exact (canonicalDigits_iff_digit0_le _).mp (canonicalDigits_encVec u)
  · rw [← decVec_encVec u, h, decVec_encVec]
  · rintro ⟨u, rfl⟩
    exact canonicalDigits_encVec u
  · exact (encVec_decVec_eq_self_iff g).mpr hg

/-- Settles O34: `ENC` is a good completion with `Enc(U)`, and extending with zeros to 132 and then
to 176 bits is one extension. -/
theorem encGivesDigits : Obligations.EncGivesDigits := by
  refine ⟨decode_mkWord _, fun u s => ?_⟩
  have hres : (encVec u).setWidth 176 = u.setWidth 176 := by
    rw [encVec_eq_setWidth, BitVec.setWidth_setWidth (by decide)]
  exact congrArg Host.Outcome.next (State.completeOk_of_setWidth hres s)

/-- Settles O35: `ENCS` is a good completion with the packed symbols, which fill `RES`. -/
theorem encsGivesSymbols : Obligations.EncsGivesSymbols := by
  refine ⟨decode_mkWord _, fun u s =>
    ⟨packChars ((digitsOf (encVec u)).map lutFwd), ?_, fun k hk => charAt_packChars_symbols _ hk⟩⟩
  exact congrArg Host.Outcome.next (State.completeOk_of_setWidth (BitVec.setWidth_eq _) s)

end Sys2Proof.Machine

/-!
The decoder's commands, `DEC` and `DECS` (42_decoder.md R115 to R121), and the host's `expand`,
which issues a `DECS` (43_host_text_layer.md R139). `DECS` completes or raises its error as its 22 lookups
do, so each statement about it is one about the characters of its operand.
-/

namespace Sys2Proof.Machine

/-! ### The bytes of a group -/

/-- Byte `j` of a group of four digits, of the number those digits write (42_decoder.md R115). -/
theorem getElem?_decGroup_eq_div (a b c d : Digit) {j : Nat} (hj : j < 3) :
    (decGroup a b c d)[j]? = some (BitVec.ofNat 8
      ((((a.toNat * 64 + b.toNat) * 64 + c.toNat) * 64 + d.toNat) / 256 ^ (2 - j) % 256)) := by
  have hmask (n : Nat) : n &&& 0xFF = n % 256 := Nat.and_two_pow_sub_one_eq_mod n 8
  interval_cases j <;> simp [decGroup, hmask, Nat.shiftRight_eq_div_pow]

theorem byteAt_decVec_zero_toNat (g : DigitVec) :
    (byteAt (decVec g) 0).toNat = ((digitAt g 0).toNat * 64 + (digitAt g 1).toNat) % 256 := by
  have hbyte : BitVec.ofNat 8 (((digitAt g 0).toNat * 64 + (digitAt g 1).toNat) % 256)
      = byteAt (decVec g) 0 := Option.some.inj (getElem?_decGroup0 g)
  rw [← hbyte, BitVec.toNat_ofNat, Nat.mod_mod]

/-- Byte `j` of group `k` of `Dec(G)` (42_decoder.md R115). -/
theorem byteAt_decVec_group_toNat (g : DigitVec) {k j : Nat} (h1 : 1 ≤ k) (h5 : k ≤ 5)
    (hj : j < 3) : (byteAt (decVec g) (3 * k - 2 + j)).toNat =
      ((((digitAt g (4 * k - 2)).toNat * 64 + (digitAt g (4 * k - 1)).toNat) * 64 +
        (digitAt g (4 * k)).toNat) * 64 + (digitAt g (4 * k + 1)).toNat) / 256 ^ (2 - j) % 256 := by
  have hbyte := getElem?_decGroup g h1 h5 hj
  rw [getElem?_decGroup_eq_div _ _ _ _ hj] at hbyte
  rw [← Option.some.inj hbyte, BitVec.toNat_ofNat, Nat.mod_mod]

/-! ### The 22 lookups of `DECS` -/

/-- The lookups hit exactly the digits whose symbols are the characters (42_decoder.md R120). -/
theorem lutFwd_digitAt_of_lutRevAll {cs : CharVec} {ds : List Digit}
    (h : lutRevAll (charsOf cs) = some ds) {k : Nat} (hk : k < 22) :
    lutFwd (digitAt (packDigits ds) k) = charAt cs k := by
  have hmap := (lutRevAll_eq_some_iff _ _).mp h
  have hlen : ds.length = 22 := by simpa using (congrArg List.length hmap).symm
  have hget := congrArg (·[k]?) hmap
  rw [digitAt_packDigits ds hlen k hk]
  apply lutFwd_of_lutRev
  simpa [charsOf, hlen, hk] using hget

/-- Some lookup misses when a character is outside the alphabet, wherever it stands
(42_decoder.md R120). -/
theorem lutRevAll_charsOf_eq_none_iff (cs : CharVec) :
    lutRevAll (charsOf cs) = none ↔ ∃ k < 22, ∀ d : Digit, lutFwd d ≠ charAt cs k := by
  simp only [lutRevAll_eq_none_iff, charsOf, List.mem_map, List.mem_range, lutRev_eq_none_iff,
    exists_exists_and_eq_and]

/-! ### One command issued to an empty port -/

theorem steps_one (s : State) : steps 1 s = step s := by
  cases h : step s <;> simp [steps, h]

/-- A command with `n` edges left completes once the host has waited `n + 1` idle ones, and finds
the registers as they were (20_memory.md R61). -/
theorem steps_idle_of_inFlight {s : State} {w : CmdWord} {n : Nat}
    (h : s.inFlight = some { word := w, remaining := n }) (es : List Edge) :
    steps (n + 1) (s.withInputs (List.replicate (n + 1) Edge.idle ++ es))
      = exec (decode w) ((s.withInFlight none).withInputs es) := by
  induction n generalizing s with
  | zero =>
    rw [steps_one, step_of_rst_released rfl]
    exact commandEdge_of_due (s := s.withInputs es) h _
  | succ n ih =>
    have hwait : step (s.withInputs (List.replicate (n + 2) Edge.idle ++ es)) =
        .next ((s.withInFlight (some { word := w, remaining := n })).withInputs
          (List.replicate (n + 1) Edge.idle ++ es)) := by
      rw [step_of_rst_released rfl]
      exact commandEdge_of_waiting
        (s := s.withInputs (List.replicate (n + 1) Edge.idle ++ es)) h _
    rw [steps_succ_of_next hwait]
    exact ih rfl

/-- The edge at which a command is presented to an empty port is the one of its acceptance
(10_state.md R36). -/
theorem step_present_of_empty {s : State} (h : s.inFlight = none) (op : Opcode) (d : Data)
    (es : List Edge) :
    step (s.withInputs (Edge.present { op := op, operand := .data d } :: es))
      = acceptWord (mkWord op d) (s.withInputs es) := by
  rw [step_of_rst_released rfl, State.pins_withInputs_cons, State.popEdge_withInputs_cons,
    ← acceptCommand_data]
  exact commandEdge_some_of_empty (s := s.withInputs es) h _

/-- A command issued to a block with nothing in flight is executed, for every latency, on the state
in which the host issued it (43_host_text_layer.md R146). -/
theorem issue_of_empty {s : State} (h : s.inFlight = none) (op : Opcode) (d : Data) :
    issue { op := op, operand := .data d } s = exec (decode (mkWord op d)) s := by
  have hport : (s.withInFlight none).withInputs s.inputs = s := by
    rw [State.withInFlight_none_of_empty h, State.withInputs]
  have hedges : issueEdges { op := op, operand := .data d } s =
      Edge.present { op := op, operand := .data d } ::
        List.replicate (Config.latency op) Edge.idle := by
    simp [issueEdges, State.busyEdges, h]
  rw [issue, hedges, List.cons_append, List.length_cons, List.length_replicate]
  have hpresent := step_present_of_empty h op d
    (List.replicate (Config.latency op) Edge.idle ++ s.inputs)
  cases hl : Config.latency op with
  | zero =>
    rw [hl, acceptWord_of_latency_zero d hl] at hpresent
    rw [steps_one, hpresent]
    exact congrArg (exec _) hport
  | succ n =>
    rw [hl, acceptWord_of_latency_succ d hl] at hpresent
    rw [steps_succ_of_next hpresent]
    refine (steps_idle_of_inFlight
      (s := s.withInFlight (some { word := mkWord op d, remaining := n })) rfl s.inputs).trans ?_
    exact congrArg (exec _) hport

/-! ### The string of a digit vector -/

/-- The host frames the character of a symbol as the symbol's code (43_host_text_layer.md R139). -/
theorem frameCode_lutFwd : ∀ d : Digit, frameCode (Char.ofNat (lutFwd d).toNat) = lutFwd d := by
  decide

/-- The operand `expand` frames holds the symbols that its string spells. -/
theorem lutFwd_digitAt_of_spellsDigits {c : List Char} {g : DigitVec} (h : SpellsDigits c g)
    {k : Nat} (hk : k < 22) : lutFwd (digitAt g k) = charAt (packChars (c.map frameCode)) k := by
  obtain ⟨hlen, hchar⟩ := h
  obtain ⟨_, hck⟩ := List.getElem?_eq_some_iff.mp (hchar k hk)
  rw [charAt_packChars _ (by simpa using hlen) k hk, List.getElem_map, hck, frameCode_lutFwd]

/-- The command that `expand` issues (43_host_text_layer.md R139). -/
theorem decode_decs (d : Data) : decode (mkWord 0b110#3 d) = .decs d := by
  obtain ⟨-, -, -, -, -, hdecs⟩ := operandIsLowBitsOfData d
  exact hdecs

/-- `expand` formats the result of its command, if that completes with one
(43_host_text_layer.md R139). -/
theorem expand_of_issue_completeOk {c : List Char} {s : State} {u : ByteVec} (hlen : c.length = 22)
    (h : issue { op := 0b110#3, operand := .data (packChars (c.map frameCode)) } s
      = .next (s.completeOk u)) :
    expand c s = .next (s.completeOk u, .ok (hexFormat u)) := by
  simp [expand, hlen, h]

/-! ### The obligations -/

/-- Settles O37: a byte of `Dec(G)` is a base-256 digit of its group's number. -/
theorem decBytesByGroup : Obligations.DecBytesByGroup := by
  refine fun g => ⟨byteAt_decVec_zero_toNat g, fun k h1 h5 => ⟨?_, ?_, ?_⟩⟩
  · exact byteAt_decVec_group_toNat g h1 h5 (j := 0) (by decide)
  · have e : 3 * k - 2 + 1 = 3 * k - 1 := by omega
    exact e ▸ byteAt_decVec_group_toNat g h1 h5 (j := 1) (by decide)
  · have e : 3 * k - 2 + 2 = 3 * k := by omega
    simpa [e] using byteAt_decVec_group_toNat g h1 h5 (j := 2) (by decide)

/-- Settles O41: `DEC` is a good completion with `Dec(G)`, the low 128 bits of `G`. -/
theorem decGivesBytes : Obligations.DecGivesBytes := by
  refine ⟨decode_mkWord _, fun g s => ?_⟩
  have hres : (decVec g).setWidth 176 = (g.extractLsb' 0 128).setWidth 176 := by
    rw [(decDropsTopFourBits g).1]
  exact congrArg Host.Outcome.next (State.completeOk_of_setWidth hres s)

/-- Settles O42: on symbols all 22 lookups hit, and a character outside the alphabet is a miss. -/
theorem decsGivesBytesOrInvalidSymbol : Obligations.DecsGivesBytesOrInvalidSymbol := by
  refine ⟨decode_decs, fun cs g s h => execDecs_of_symbols h s, fun cs k s hk hmiss => ?_⟩
  have miss := (lutRevAll_charsOf_eq_none_iff cs).mpr ⟨k, hk, hmiss⟩
  exact ⟨_, execDecs_of_miss miss s, s.raiseError_errorEntry .invalidSymbol⟩

/-- Settles O43, by the two ways `DECS` ends. -/
theorem decsIsAllOrNothing : Obligations.DecsIsAllOrNothing := by
  intro cs s
  obtain ⟨ds, hits, hx⟩ | ⟨miss, hx⟩ := execDecs_cases cs s
  · exact ⟨_, hx, .inl ⟨rfl, packDigits ds, fun k hk => lutFwd_digitAt_of_lutRevAll hits hk, rfl⟩⟩
  · exact ⟨_, hx, .inr ⟨s.raiseError_errorEntry .invalidSymbol,
      (lutRevAll_charsOf_eq_none_iff cs).mp miss⟩⟩

/-- Settles O52: the `DECS` that `expand` issues has the symbols of `G` as its operand, so it
completes with `Dec(G)`. -/
theorem expandGivesDecodedBytes : Obligations.ExpandGivesDecodedBytes := by
  intro c g s hspell hempty
  have hlen : c.length = 22 := hspell.1
  refine expand_of_issue_completeOk hlen ?_
  rw [issue_of_empty hempty, decode_decs]
  exact execDecs_of_symbols (fun k hk => lutFwd_digitAt_of_spellsDigits hspell hk) s

end Sys2Proof.Machine

/-!
The text layer (43_host_text_layer.md R135 to R146): its hex strings, its interaction with the
block, the two string functions, which issue one command each, and the hyphens.
-/

namespace Sys2Proof.Machine

/-! ### Hex pairs -/

/-- Characters `2i` and `2i + 1` of the string are hex digits that write the byte `B`
(43_host_text_layer.md R136). -/
abbrev IsHexPair (b : Bool) (h : List Char) (i : Nat) (B : Byte) : Prop :=
  ∃ x y m n, h[2 * i]? = some x ∧ h[2 * i + 1]? = some y ∧
    IsHexDigit b x m ∧ IsHexDigit b y n ∧ B.toNat = 16 * m + n

/-- The parser takes a string when it takes its first pair and the rest. -/
theorem hexPairs_cons_cons_eq_some_iff (b : Bool) (x y : Char) (rest : List Char)
    (bs : List Byte) : hexPairs b (x :: y :: rest) = some bs ↔
      ∃ m n bs', hexVal b x = some m ∧ hexVal b y = some n ∧ hexPairs b rest = some bs' ∧
        BitVec.ofNat 8 (16 * m + n) :: bs' = bs := by
  rw [hexPairs]
  split
  next hx hy hr => simp [hx, hy, hr]
  next hmiss =>
    refine iff_of_false (by simp) ?_
    rintro ⟨m, n, bs', hm, hn, hr, -⟩
    exact hmiss m n bs' hm hn hr

theorem toNat_hexPair {m n : Nat} (hm : m < 16) (hn : n < 16) :
    (BitVec.ofNat 8 (16 * m + n)).toNat = 16 * m + n := by
  rw [BitVec.toNat_ofNat]
  omega

/-- The first pair of a string, as the parser reads it. -/
theorem isHexPair_zero_iff (b : Bool) (x y : Char) (rest : List Char) (B : Byte) :
    IsHexPair b (x :: y :: rest) 0 B ↔
      ∃ m n, hexVal b x = some m ∧ hexVal b y = some n ∧ BitVec.ofNat 8 (16 * m + n) = B := by
  simp only [hexVal_eq_some_iff]
  constructor
  · rintro ⟨_, _, m, n, ⟨rfl⟩, ⟨rfl⟩, hm, hn, hB⟩
    exact ⟨m, n, hm, hn, BitVec.eq_of_toNat_eq ((toNat_hexPair hm.lt hn.lt).trans hB.symm)⟩
  · rintro ⟨m, n, hm, hn, rfl⟩
    exact ⟨x, y, m, n, rfl, rfl, hm, hn, toNat_hexPair hm.lt hn.lt⟩

/-- Every other pair of a string is one of its rest. -/
theorem isHexPair_succ_iff (b : Bool) (x y : Char) (rest : List Char) (i : Nat) (B : Byte) :
    IsHexPair b (x :: y :: rest) (i + 1) B ↔ IsHexPair b rest i B := Iff.rfl

/-- The parser reads a list of bytes from the string of their hex pairs, and from no other
(43_host_text_layer.md R136). -/
theorem hexPairs_eq_some_iff (b : Bool) (h : List Char) (bs : List Byte) :
    hexPairs b h = some bs ↔
      h.length = 2 * bs.length ∧ ∀ i B, bs[i]? = some B → IsHexPair b h i B := by
  induction bs generalizing h with
  | nil =>
    match h with
    | [] => simp [hexPairs]
    | [_] => simp [hexPairs]
    | x :: y :: rest => simp [hexPairs_cons_cons_eq_some_iff]
  | cons B bs ih =>
    match h with
    | [] => simp [hexPairs]
    | [_] => simp [hexPairs]; omega
    | x :: y :: rest =>
      rw [hexPairs_cons_cons_eq_some_iff]
      constructor
      · rintro ⟨m, n, _, hm, hn, hr, ⟨⟩⟩
        obtain ⟨hlen, hpairs⟩ := (ih rest).mp hr
        refine ⟨by simp only [List.length_cons]; omega, fun i B hB => ?_⟩
        cases i with
        | zero => exact (isHexPair_zero_iff ..).mpr ⟨m, n, hm, hn, by simpa using hB⟩
        | succ i => exact (isHexPair_succ_iff ..).mpr (hpairs i B (by simpa using hB))
      · rintro ⟨hlen, hpairs⟩
        obtain ⟨m, n, hm, hn, hB⟩ := (isHexPair_zero_iff ..).mp (hpairs 0 B rfl)
        have hr := (ih rest).mpr ⟨by simp only [List.length_cons] at hlen; omega,
          fun i B' hB' => (isHexPair_succ_iff ..).mp (hpairs (i + 1) B' hB')⟩
        exact ⟨m, n, bs, hm, hn, hr, by rw [hB]⟩

/-- The parser reads a string of even length when every character of it is a digit. -/
theorem exists_hexPairs_iff (b : Bool) (h : List Char) (heven : h.length % 2 = 0) :
    (∃ bs, hexPairs b h = some bs) ↔ ∀ c ∈ h, ∃ n, IsHexDigit b c n := by
  induction h using List.twoStepInduction with
  | nil => simp [hexPairs]
  | singleton x => simp at heven
  | cons_cons x y rest ih _ =>
    have hrest := ih (by simp only [List.length_cons] at heven; omega)
    simp only [hexPairs_cons_cons_eq_some_iff, hexVal_eq_some_iff, List.forall_mem_cons, ← hrest]
    constructor
    · rintro ⟨_, m, n, bs, hm, hn, hbs, -⟩
      exact ⟨⟨m, hm⟩, ⟨n, hn⟩, ⟨bs, hbs⟩⟩
    · rintro ⟨⟨m, hm⟩, ⟨n, hn⟩, ⟨bs, hbs⟩⟩
      exact ⟨_, m, n, bs, hm, hn, hbs, rfl⟩

/-- The formatter's pairs are read back (43_host_text_layer.md R137). -/
theorem hexPairs_flatMap_hexByte (b : Bool) (bs : List Byte) :
    hexPairs b (bs.flatMap hexByte) = some bs := by
  induction bs with
  | nil => rfl
  | cons B bs ih =>
    have hB := B.isLt
    refine (hexPairs_cons_cons_eq_some_iff ..).mpr ⟨B.toNat / 16, B.toNat % 16, bs,
      hexVal_hexChar b _ (by omega), hexVal_hexChar b _ (by omega), ih, ?_⟩
    rw [Nat.div_add_mod, BitVec.ofNat_toNat, BitVec.setWidth_eq]

/-! ### Lower-case hex strings -/

/-- The digits the formatter writes (43_host_text_layer.md R135). -/
abbrev IsLowerHex (c : Char) : Prop :=
  (0x30 ≤ c.toNat ∧ c.toNat ≤ 0x39) ∨ (0x61 ≤ c.toNat ∧ c.toNat ≤ 0x66)

theorem isLowerHex_hexChar {n : Nat} (h : n < 16) : IsLowerHex (hexChar n) := by
  have all : ∀ m : Fin 16, IsLowerHex (hexChar m) := by decide
  exact all ⟨n, h⟩

/-- A lower-case digit is a digit for either parser. -/
theorem IsLowerHex.isHexDigit {c : Char} (h : IsLowerHex c) (b : Bool) :
    ∃ n, IsHexDigit b c n := by
  obtain ⟨h1, h2⟩ | ⟨h1, h2⟩ := h
  · exact ⟨_, .inl ⟨h1, h2, rfl⟩⟩
  · exact ⟨_, .inr (.inl ⟨h1, h2, rfl⟩)⟩

/-- The formatter writes a value as the lower-case digit that has it. -/
theorem IsLowerHex.hexChar_eq {c : Char} (hc : IsLowerHex c) {b : Bool} {n : Nat}
    (h : IsHexDigit b c n) : hexChar n = c := by
  obtain ⟨h1, h2, rfl⟩ | ⟨h1, h2, rfl⟩ | ⟨-, h1, h2, -⟩ := h
  · rw [hexChar, if_pos (by omega), Nat.add_sub_cancel' h1, Char.ofNat_toNat]
  · rw [hexChar, if_neg (by omega), Nat.add_sub_cancel, Nat.add_sub_cancel' h1, Char.ofNat_toNat]
  · omega

theorem hexByte_hexPair {m n : Nat} (hm : m < 16) (hn : n < 16) :
    hexByte (BitVec.ofNat 8 (16 * m + n)) = [hexChar m, hexChar n] := by
  have hdiv : (16 * m + n) / 16 = m := by omega
  have hmod : (16 * m + n) % 16 = n := by omega
  rw [hexByte, toNat_hexPair hm hn, hdiv, hmod]

/-- A lower-case string is what the formatter writes for the bytes the parser reads
(43_host_text_layer.md R137). -/
theorem flatMap_hexByte_of_hexPairs {b : Bool} {h : List Char} {bs : List Byte}
    (hlower : ∀ c ∈ h, IsLowerHex c) (hbs : hexPairs b h = some bs) :
    bs.flatMap hexByte = h := by
  induction h using List.twoStepInduction generalizing bs with
  | nil => cases hbs; rfl
  | singleton x => cases hbs
  | cons_cons x y rest ih _ =>
    obtain ⟨m, n, bs, hm, hn, hr, rfl⟩ := (hexPairs_cons_cons_eq_some_iff ..).mp hbs
    rw [hexVal_eq_some_iff] at hm hn
    simp only [List.forall_mem_cons] at hlower
    obtain ⟨hx, hy, hrest⟩ := hlower
    rw [List.flatMap_cons, hexByte_hexPair hm.lt hn.lt, ih hrest hr, hx.hexChar_eq hm,
      hy.hexChar_eq hn]
    rfl

/-! ### `hex_parse` and `hex_format` -/

theorem packBytes_bytesOf (u : ByteVec) : packBytes (bytesOf u) = u := by
  apply byteVec_ext
  intro i hi
  rw [byteAt_packBytes _ (length_bytesOf u) i hi]
  simp [bytesOf]

theorem bytesOf_packBytes {bs : List Byte} (h : bs.length = 16) : bytesOf (packBytes bs) = bs := by
  apply List.ext_getElem
  · rw [length_bytesOf, h]
  · intro i _ hi
    simpa [bytesOf] using byteAt_packBytes bs h i (h ▸ hi)

/-- `hex_parse` reads the bytes of its pairs. -/
theorem hexParse_eq_ok_iff (b : Bool) (h : List Char) (u : ByteVec) :
    hexParse b h = .ok u ↔ h.length = 32 ∧ hexPairs b h = some (bytesOf u) := by
  by_cases hlen : h.length = 32
  · cases hp : hexPairs b h with
    | none => simp [hexParse, hlen, hp]
    | some bs =>
      obtain ⟨hbs, -⟩ := (hexPairs_eq_some_iff b h bs).mp hp
      have hinv : packBytes bs = u ↔ bs = bytesOf u := by
        constructor
        · rintro rfl
          rw [bytesOf_packBytes (by omega)]
        · rintro rfl
          exact packBytes_bytesOf u
      simp [hexParse, hlen, hp, hinv]
  · simp [hexParse, hlen]

/-- The strings that `hex_parse` reads (43_host_text_layer.md R136). -/
theorem hexParse_eq_ok_iff_spellsBytes (b : Bool) (h : List Char) (u : ByteVec) :
    hexParse b h = .ok u ↔ SpellsBytes b h u := by
  rw [hexParse_eq_ok_iff, hexPairs_eq_some_iff, length_bytesOf]
  constructor
  · rintro ⟨hlen, -, hpairs⟩
    exact ⟨hlen, fun i hi => hpairs i _ (getElem?_bytesOf u hi)⟩
  · rintro ⟨hlen, hpairs⟩
    refine ⟨hlen, hlen, fun i B hB => ?_⟩
    obtain ⟨hi, -⟩ := List.getElem?_eq_some_iff.mp hB
    rw [length_bytesOf] at hi
    rw [getElem?_bytesOf u hi, Option.some.injEq] at hB
    exact hB ▸ hpairs i hi

/-- The strings that `hex_parse` refuses (43_host_text_layer.md R136). -/
theorem hexParse_eq_error_iff_malformedHex (b : Bool) (h : List Char) :
    hexParse b h = .error .invalidHexInput ↔ MalformedHex b h := by
  by_cases hlen : h.length = 32
  · have hread := exists_hexPairs_iff b h (by omega)
    have hbad : MalformedHex b h ↔ ¬ ∃ bs, hexPairs b h = some bs := by
      rw [hread]
      simp [MalformedHex, hlen]
    rw [hbad]
    cases hp : hexPairs b h <;> simp [hexParse, hlen, hp]
  · simp [hexParse, MalformedHex, hlen]

@[simp] theorem length_hexFormat (u : ByteVec) : (hexFormat u).length = 32 := by
  simp [hexFormat, hexByte]

theorem isLowerHex_of_mem_hexFormat {u : ByteVec} {c : Char} (h : c ∈ hexFormat u) :
    IsLowerHex c := by
  obtain ⟨B, -, hc⟩ := List.mem_flatMap.mp h
  have hB := B.isLt
  simp only [hexByte, List.mem_cons, List.not_mem_nil, or_false] at hc
  obtain rfl | rfl := hc <;> exact isLowerHex_hexChar (by omega)

/-- `hex_parse` undoes `hex_format` (43_host_text_layer.md R137). -/
theorem hexParse_hexFormat (b : Bool) (u : ByteVec) : hexParse b (hexFormat u) = .ok u :=
  (hexParse_eq_ok_iff b _ u).mpr ⟨length_hexFormat u, hexPairs_flatMap_hexByte b (bytesOf u)⟩

/-- A lower-case string of 32 digits is what `hex_format` writes for the bytes it is read as
(43_host_text_layer.md R137). -/
theorem exists_hexParse_eq_ok_of_lowerHex (b : Bool) {h : List Char} (hlen : h.length = 32)
    (hlower : ∀ c ∈ h, IsLowerHex c) : ∃ u, hexParse b h = .ok u ∧ hexFormat u = h := by
  obtain ⟨bs, hbs⟩ := (exists_hexPairs_iff b h (by omega)).mpr
    fun c hc => (hlower c hc).isHexDigit b
  have hinv : bytesOf (packBytes bs) = bs := by
    obtain ⟨hlen', -⟩ := (hexPairs_eq_some_iff b h bs).mp hbs
    exact bytesOf_packBytes (by omega)
  refine ⟨packBytes bs, (hexParse_eq_ok_iff ..).mpr ⟨hlen, by rw [hinv, hbs]⟩, ?_⟩
  rw [hexFormat, hinv, flatMap_hexByte_of_hexPairs hlower hbs]

/-! ### The host's interaction with the block -/

/-- A command does not look at what the host goes on to drive (10_state.md R39). -/
theorem exec_withInputs {i : Instr} {s t : State} (h : exec i s = .next t) (es : List Edge) :
    exec i (s.withInputs es) = .next (t.withInputs es) := by
  obtain ⟨-, w, v, hx⟩ | ⟨-, hx⟩ | ⟨-, hx⟩ := exec_uniform i <;>
    obtain rfl := exec_next_unique h (hx s) <;> exact hx (s.withInputs es)

/-- To a busy block the host waits, and then does what it would do to an empty one
(43_host_text_layer.md R146). -/
theorem issueEdges_of_inFlight {s t : State} {f : InFlight} (hs : s.inFlight = some f)
    (ht : t.inFlight = none) (c : HostCommand) :
    issueEdges c s = List.replicate (f.remaining + 1) Edge.idle ++ issueEdges c t := by
  simp [issueEdges, State.busyEdges, hs, ht]

theorem inFlight_of_exec {i : Instr} {s t : State} (h : exec i s = .next t) :
    t.inFlight = s.inFlight := by
  obtain ⟨u, hu, hport, -⟩ := everyCommandCompletes i s
  rw [exec_next_unique h hu, hport]

theorem inputs_of_exec {i : Instr} {s t : State} (h : exec i s = .next t) :
    t.inputs = s.inputs := by
  obtain ⟨u, hu, -, hinputs⟩ := everyCommandCompletes i s
  rw [exec_next_unique h hu, hinputs]

/-- A command issued to a busy block is issued to the state that the command in flight leaves
(43_host_text_layer.md R140, R146). -/
theorem issue_of_inFlight {s t : State} {f : InFlight} (hs : s.inFlight = some f)
    (hx : exec (decode f.word) (s.withInFlight none) = .next t) (c : HostCommand) :
    issue c s = issue c t := by
  have hwait := steps_idle_of_inFlight hs (issueEdges c t ++ s.inputs)
  rw [exec_withInputs hx] at hwait
  rw [issue, issue, issueEdges_of_inFlight hs (inFlight_of_exec hx), List.length_append,
    List.length_replicate, List.append_assoc, steps_add_of_next _ _ hwait, inputs_of_exec hx]
  rfl

/-! ### `compress` and `expand` -/

theorem compress_of_error {h : List Char} {e : TextError}
    (he : hexParse Config.hexAcceptUpper h = .error e) (s : State) :
    compress h s = .next (s, .error e) := by
  simp [compress, he]

/-- The command that `compress` issues (43_host_text_layer.md R138). -/
theorem decode_encs_setWidth (u : ByteVec) :
    decode (mkWord 0b101#3 (u.setWidth 176)) = .encs u :=
  (decode_mkWord _ _).trans (decodeFields_opcode_data (.encs u))

/-- The string of the symbols of a digit vector, as `compress` reads it from `RES`
(43_host_text_layer.md R138). -/
def symbolString (g : DigitVec) : List Char :=
  (charsOf (packChars ((digitsOf g).map lutFwd))).map codeChar

theorem spellsDigits_symbolString (g : DigitVec) : SpellsDigits (symbolString g) g := by
  refine ⟨by simp [symbolString], fun k hk => ?_⟩
  rw [symbolString, List.getElem?_map, getElem?_charsOf _ hk, charAt_packChars_symbols g hk]
  rfl

/-- `compress` leaves the block with its completed `ENCS` (43_host_text_layer.md R138). -/
theorem compress_of_ok {h : List Char} {u : ByteVec} {s : State}
    (hu : hexParse Config.hexAcceptUpper h = .ok u) (hempty : s.inFlight = none) :
    compress h s = .next (s.completeOk (packChars ((digitsOf (encVec u)).map lutFwd)),
      .ok (symbolString (encVec u))) := by
  have hissue : issue { op := 0b101#3, operand := .data (u.setWidth 176) } s
      = .next (s.completeOk (packChars ((digitsOf (encVec u)).map lutFwd))) := by
    rw [issue_of_empty hempty, decode_encs_setWidth]
    rfl
  simp [compress, hu, hissue, symbolString]

/-- The code framed for a character that is no symbol misses: the character's own code is no
symbol's, and `0xFF` is none either (43_host_text_layer.md R139). -/
theorem lutFwd_ne_frameCode {x : Char} (hx : ∀ d : Digit, (lutFwd d).toNat ≠ x.toNat) (d : Digit) :
    lutFwd d ≠ frameCode x := by
  have hmiss : ∀ d : Digit, lutFwd d ≠ 0xFF := by decide
  by_cases hascii : isAscii x
  · intro h
    have hlt : x.toNat < 128 := by simpa [isAscii] using hascii
    apply hx d
    rw [h, frameCode, if_pos hascii, asciiCode, BitVec.toNat_ofNat, Nat.mod_eq_of_lt (by omega)]
  · rw [frameCode, if_neg hascii]
    exact hmiss d

/-- `expand` reports the error that its command raised (43_host_text_layer.md R139). -/
theorem expand_of_issue_invalidSymbol {c : List Char} {s t : State} (hlen : c.length = 22)
    (h : issue { op := 0b110#3, operand := .data (packChars (c.map frameCode)) } s = .next t)
    (herr : t.err = 0b01#2) : expand c s = .next (t, .error .invalidSymbol) := by
  simp [expand, hlen, h, herr]

/-! ### Hyphens -/

/-- Five pieces joined with hyphens (43_host_text_layer.md R141). -/
def joinHyphens (a b c d e : List Char) : List Char :=
  a ++ ['-'] ++ b ++ ['-'] ++ c ++ ['-'] ++ d ++ ['-'] ++ e

/-- `split` joins the pieces of its argument with hyphens (43_host_text_layer.md R141). -/
theorem split_append_pieces {a b c d e : List Char} (ha : a.length = 8) (hb : b.length = 4)
    (hc : c.length = 4) (hd : d.length = 4) (he : e.length = 12) :
    split (a ++ b ++ c ++ d ++ e) = .ok (joinHyphens a b c d e) := by
  simp [split, joinHyphens, List.drop_append, List.drop_eq_nil_of_le, ha, hb, hc, hd, he]

/-- What `split` gives is the pieces of its argument, of 8, 4, 4, 4 and 12 characters, joined. -/
theorem split_eq_ok {h out : List Char} (hout : split h = .ok out) :
    ∃ a b c d e, h = a ++ b ++ c ++ d ++ e ∧ out = joinHyphens a b c d e ∧
      a.length = 8 ∧ b.length = 4 ∧ c.length = 4 ∧ d.length = 4 ∧ e.length = 12 := by
  by_cases hlen : h.length = 32
  · rw [split, if_pos hlen, Except.ok.injEq] at hout
    have h12 : h.take 12 = h.take 8 ++ (h.drop 8).take 4 := List.take_add (i := 8) (j := 4)
    have h16 : h.take 16 = h.take 12 ++ (h.drop 12).take 4 := List.take_add (i := 12) (j := 4)
    have h20 : h.take 20 = h.take 16 ++ (h.drop 16).take 4 := List.take_add (i := 16) (j := 4)
    refine ⟨_, _, _, _, _, ?_, hout.symm, ?_, ?_, ?_, ?_, ?_⟩
    · rw [← h12, ← h16, ← h20, List.take_append_drop]
    all_goals simp [hlen]
  · simp [split, hlen] at hout

@[simp] theorem stripHyphens_append (xs ys : List Char) :
    stripHyphens (xs ++ ys) = stripHyphens xs ++ stripHyphens ys :=
  List.filter_append ..

@[simp] theorem stripHyphens_cons_hyphen (xs : List Char) :
    stripHyphens ('-' :: xs) = stripHyphens xs := rfl

/-- Stripping takes out nothing but hyphens. -/
theorem stripHyphens_of_not_mem {cs : List Char} (h : '-' ∉ cs) : stripHyphens cs = cs := by
  refine List.filter_eq_self.mpr fun c hc => ?_
  rw [bne_iff_ne]
  rintro rfl
  exact h hc

/-! ### The obligations -/

/-- Settles O53: `expand` reads the symbols of `Enc(U)` that `compress` wrote, and `Dec` undoes
`Enc`. -/
theorem expandUndoesCompress : Obligations.ExpandUndoesCompress := by
  intro u s hempty
  have hspell := spellsDigits_symbolString (encVec u)
  have hexpand := expandGivesDecodedBytes _ _
    (s.completeOk (packChars ((digitsOf (encVec u)).map lutFwd))) hspell hempty
  rw [decVec_encVec] at hexpand
  exact ⟨_, _, _, compress_of_ok (hexParse_hexFormat _ u) hempty, hspell.1, hexpand⟩

/-- Settles O48: waiting for a busy block brings the host to the state its command leaves, in which
nothing is in flight. -/
theorem issueRunsOneCommand : Obligations.IssueRunsOneCommand := by
  refine ⟨fun s op d hempty => issue_of_empty hempty op d, fun s t f op d hf hx => ?_⟩
  have hport : t.inFlight = none := inFlight_of_exec hx
  rw [issue_of_inFlight hf hx]
  exact issue_of_empty hport op d

/-- Settles O49, from the pairs of the formatter and of the parser. -/
theorem hexFormatAndParseAgree : Obligations.HexFormatAndParseAgree :=
  ⟨fun u b => ⟨hexParse_hexFormat b u, length_hexFormat u, fun _ => isLowerHex_of_mem_hexFormat⟩,
    fun _ b => exists_hexParse_eq_ok_of_lowerHex b⟩

/-- Settles O50: the parser reads the bytes of the string's pairs, and refuses a string with a
character that has no value. -/
theorem hexParseReadsOrRefuses : Obligations.HexParseReadsOrRefuses :=
  fun b h => ⟨hexParse_eq_ok_iff_spellsBytes b h, hexParse_eq_error_iff_malformedHex b h⟩

/-- Settles O51, by what the parser makes of the string. -/
theorem compressGivesSymbols : Obligations.CompressGivesSymbols := by
  refine ⟨fun h s hbad => ?_, fun h u s hspell hempty => ?_⟩
  · exact compress_of_error ((hexParse_eq_error_iff_malformedHex _ h).mpr hbad) s
  · have hu := (hexParse_eq_ok_iff_spellsBytes _ h u).mpr hspell
    exact ⟨_, _, compress_of_ok hu hempty, spellsDigits_symbolString _, rfl, rfl⟩

/-- Settles O54: the command is issued to strings of 22 characters only, and the code framed for the
bad character misses. -/
theorem expandErrors : Obligations.ExpandErrors := by
  refine ⟨fun c s hlen => if_neg hlen, fun c x s hlen hempty hx hsym => ?_⟩
  obtain ⟨k, hk, rfl⟩ := List.getElem_of_mem hx
  have hmiss (d : Digit) : lutFwd d ≠ charAt (packChars (c.map frameCode)) k := by
    rw [charAt_packChars _ (by simpa using hlen) k (hlen ▸ hk), List.getElem_map]
    exact lutFwd_ne_frameCode hsym d
  obtain ⟨-, -, hdecs⟩ := decsGivesBytesOrInvalidSymbol
  obtain ⟨t, hexec, herr⟩ := hdecs _ k s (hlen ▸ hk) hmiss
  rw [← decode_decs, ← issue_of_empty hempty] at hexec
  exact ⟨t, expand_of_issue_invalidSymbol hlen hexec herr.1, herr⟩

/-- Settles O55, by the five pieces of a string of 32 characters. -/
theorem splitInsertsHyphens : Obligations.SplitInsertsHyphens := by
  refine ⟨fun a b c d e => split_append_pieces, fun h out hout => ?_, fun h hlen => if_neg hlen⟩
  obtain ⟨a, b, c, d, e, -, rfl, ha, hb, hc, hd, he⟩ := split_eq_ok hout
  simp [joinHyphens, ha, hb, hc, hd, he]

/-- Settles O56: stripping the joined pieces is stripping the string, which has no hyphen. -/
theorem stripUndoesSplit : Obligations.StripUndoesSplit := by
  intro h out hout hfree
  obtain ⟨a, b, c, d, e, rfl, rfl, -⟩ := split_eq_ok hout
  calc stripHyphens (joinHyphens a b c d e)
      = stripHyphens (a ++ b ++ c ++ d ++ e) := by simp [joinHyphens]
    _ = a ++ b ++ c ++ d ++ e := stripHyphens_of_not_mem hfree

end Sys2Proof.Machine

/-!
The exceptions of the block (60_exceptions.md R163, R169, R174). Every edge leaves a next state but
one: the acceptance of a `RES` that is not valid.
-/

namespace Sys2Proof.Machine

/-! ### The edges that leave a next state -/

/-- "Reset has priority over everything" (60_exceptions.md R169). -/
theorem step_of_rst_asserted {s : State} (h : s.pins.rst = true) :
    step s = .next s.popEdge.applyReset := by
  simp [step, clockEdge, h]

/-- No command stops the block (60_exceptions.md R174). -/
theorem exists_exec_eq_next (i : Instr) (s : State) : ∃ t, exec i s = .next t := by
  obtain ⟨t, hx, -⟩ := everyCommandCompletes i s
  exact ⟨t, hx⟩

/-- A busy block counts down or completes its command, whatever the host presents. -/
theorem exists_commandEdge_eq_next_of_inFlight {s : State} {f : InFlight} (h : s.inFlight = some f)
    (c : Option HostCommand) : ∃ t, commandEdge c s = .next t := by
  obtain ⟨w, n⟩ := f
  cases n with
  | zero =>
    rw [commandEdge_of_due h]
    exact exists_exec_eq_next _ _
  | succ n => exact ⟨_, commandEdge_of_waiting h c⟩

/-- An accepted word completes at once or is in flight (70_reset_and_hazards.md R193). -/
theorem exists_acceptWord_eq_next (op : Opcode) (d : Data) (s : State) :
    ∃ t, acceptWord (mkWord op d) s = .next t := by
  cases hl : Config.latency op with
  | zero =>
    rw [acceptWord_of_latency_zero d hl]
    exact exists_exec_eq_next _ _
  | succ n => exact ⟨_, acceptWord_of_latency_succ d hl⟩

/-- The host may present its own data always, and `RES` while it is valid
(70_reset_and_hazards.md R190). -/
theorem exists_acceptCommand_eq_next {s : State} {c : HostCommand}
    (h : c.operand = .res → s.rvalid = true) : ∃ t, acceptCommand c s = .next t := by
  obtain ⟨op, operand⟩ := c
  cases operand with
  | data d => exact exists_acceptWord_eq_next op d s
  | res =>
    rw [acceptCommand_res (h rfl)]
    exact exists_acceptWord_eq_next op s.res s

/-! ### The obligations -/

/-- Settles O14: reset, an idle port and a command in flight leave a next state whatever the host
does, and an acceptance does so under the host's duty. -/
theorem blockNeverStopsDutifulHost : Obligations.BlockNeverStopsDutifulHost := by
  intro s hduty
  cases hr : s.pins.rst with
  | true => exact ⟨_, step_of_rst_asserted hr⟩
  | false =>
    rw [step_of_rst_released hr]
    cases hf : s.inFlight with
    | some f => exact exists_commandEdge_eq_next_of_inFlight (s := s.popEdge) hf _
    | none =>
      have hempty : s.popEdge.inFlight = none := hf
      cases hc : s.pins.cmd with
      | none => exact ⟨_, commandEdge_none_of_empty hempty⟩
      | some c =>
        have hready : s.cmdReady = true := (State.cmdReady_eq_true_iff s).mpr ⟨hr, hf⟩
        rw [commandEdge_some_of_empty hempty]
        exact exists_acceptCommand_eq_next (s := s.popEdge) (hduty hready c hc)

/-- Settles O47: the opcode alone selects a reserved command, which raises `IllegalOp`. -/
theorem reservedOpcodesAreIllegal : Obligations.ReservedOpcodesAreIllegal :=
  ⟨fun d => ⟨decode_mkWord _ d, decode_mkWord _ d⟩,
    fun s => ⟨_, rfl, s.raiseError_errorEntry .illegalOp⟩,
    fun s => ⟨_, rfl, s.raiseError_errorEntry .illegalOp⟩⟩

end Sys2Proof.Machine

/-!
Reset and the command port over several edges (70_reset_and_hazards.md R185, R186, R190 to R193).
A run that no reset interrupts takes an accepted command to its completion, and an edge leaves a
next state unless the host breaks its duty at the port.
-/

namespace Sys2Proof.Machine

/-! ### Runs that no reset interrupts -/

/-- The host keeps `rst` released over the first `k` edges (70_reset_and_hazards.md R185). -/
abbrev NoReset (k : Nat) (es : List Edge) : Prop := ∀ e ∈ es.take k, e.rst = false

/-- Past the end of the host's list the ports are idle, and `rst` is released there too. -/
theorem NoReset.rst_released {k : Nat} {s : State} (h : NoReset (k + 1) s.inputs) :
    s.pins.rst = false := by
  cases hs : s.inputs with
  | nil => simp [State.pins, hs, Edge.idle]
  | cons e es => exact h s.pins (by simp [State.pins, hs])

theorem NoReset.tail {k : Nat} {es : List Edge} (h : NoReset (k + 1) es) : NoReset k es.tail := by
  cases es with
  | nil => simp [NoReset]
  | cons e es => exact fun e' he' => h e' (List.mem_cons_of_mem e he')

/-- A command in flight with `n` edges left is executed at the edge after them, on the registers it
was accepted with (70_reset_and_hazards.md R192; 20_memory.md R61). -/
theorem steps_of_inFlight {n : Nat} {s : State} {w : CmdWord}
    (hf : s.inFlight = some { word := w, remaining := n }) (hr : NoReset (n + 1) s.inputs) :
    steps (n + 1) s =
      exec (decode w) ((s.withInFlight none).withInputs (s.inputs.drop (n + 1))) := by
  induction n generalizing s with
  | zero =>
    rw [steps_one, step_of_rst_released hr.rst_released, List.drop_one]
    exact commandEdge_of_due (s := s.popEdge) hf _
  | succ n ih =>
    rw [steps_succ_of_next (waitingEdgeKeepsRegisters s w n hf hr.rst_released), ← List.drop_tail]
    exact ih rfl hr.tail

/-! ### The acceptance of a command -/

/-- A command is accepted with the operand that the host drives (10_state.md R36). -/
theorem acceptCommand_of_hostOperand {s : State} {c : HostCommand} {d : Data}
    (h : s.hostOperand c.operand = .ok d) : acceptCommand c s = acceptWord (mkWord c.op d) s := by
  simp [acceptCommand, h]

/-- A ready block accepts the command at its port. -/
theorem step_of_cmdReady_of_cmd {s : State} {c : HostCommand} (hready : s.cmdReady = true)
    (hcmd : s.pins.cmd = some c) : step s = acceptCommand c s.popEdge := by
  obtain ⟨-, hempty⟩ := (State.cmdReady_eq_true_iff s).mp hready
  rw [step_of_cmdReady hready, hcmd]
  exact commandEdge_some_of_empty (s := s.popEdge) hempty c

/-- A command that a ready block accepts is executed `LAT(op)` edges after the accepting one, and at
that edge itself if `LAT(op) = 0` (70_reset_and_hazards.md R192, R193). -/
theorem steps_of_accepted {s : State} {c : HostCommand} {d : Data} (hready : s.cmdReady = true)
    (hcmd : s.pins.cmd = some c) (hd : s.hostOperand c.operand = .ok d)
    (hr : NoReset (Config.latency c.op + 1) s.inputs) :
    steps (Config.latency c.op + 1) s =
      exec (decode (mkWord c.op d))
        ((s.withInFlight none).withInputs (s.inputs.drop (Config.latency c.op + 1))) := by
  have haccept : step s = acceptWord (mkWord c.op d) s.popEdge :=
    (step_of_cmdReady_of_cmd hready hcmd).trans (acceptCommand_of_hostOperand (s := s.popEdge) hd)
  cases hl : Config.latency c.op with
  | zero =>
    rw [steps_one, haccept, acceptWord_of_latency_zero d hl, List.drop_one]
    rfl
  | succ n =>
    rw [hl] at hr
    rw [acceptWord_of_latency_succ d hl] at haccept
    rw [steps_succ_of_next haccept, ← List.drop_tail]
    exact steps_of_inFlight rfl hr.tail

/-- A command executed with nothing in flight leaves a block that is ready for the next one as soon
as `rst` is released (10_state.md R36). -/
theorem exec_leaves_ready (i : Instr) {s : State} (hempty : s.inFlight = none) :
    ∃ t, exec i s = .next t ∧ t.inFlight = none ∧ t.inputs = s.inputs ∧
      (t.pins.rst = false → t.cmdReady = true) := by
  obtain ⟨t, hx, hport, hinputs⟩ := everyCommandCompletes i s
  rw [hempty] at hport
  exact ⟨t, hx, hport, hinputs, fun hrst => (State.cmdReady_eq_true_iff t).mpr ⟨hrst, hport⟩⟩

/-! ### The host's breach of its duty -/

/-- The breach: a `RES` that is not valid, presented to a block that accepts it
(43_host_text_layer.md R140; 70_reset_and_hazards.md R190). -/
theorem State.not_hostKeepsDuty_iff (s : State) :
    ¬ s.HostKeepsDuty ↔ s.cmdReady = true ∧ s.rvalid = false ∧
      ∃ op, s.pins.cmd = some { op := op, operand := .res } := by
  constructor
  · intro h
    simp only [State.HostKeepsDuty, not_forall, Bool.not_eq_true] at h
    obtain ⟨hready, ⟨op, operand⟩, hcmd, rfl, hinvalid⟩ := h
    exact ⟨hready, hinvalid, op, hcmd⟩
  · rintro ⟨hready, hinvalid, op, hcmd⟩ hduty
    have hvalid := hduty hready _ hcmd rfl
    simp [hinvalid] at hvalid

/-- The breach stops the block (70_reset_and_hazards.md R190). -/
theorem step_of_not_hostKeepsDuty {s : State} (h : ¬ s.HostKeepsDuty) :
    step s = .fault .resNotValid := by
  obtain ⟨hready, hinvalid, op, hcmd⟩ := s.not_hostKeepsDuty_iff.mp h
  have hoperand : s.popEdge.hostOperand .res = .error .resNotValid :=
    (State.readRes_eq_error_iff s.popEdge _).mpr ⟨hinvalid, rfl⟩
  rw [step_of_cmdReady_of_cmd hready hcmd, acceptCommand, hoperand]

/-! ### The obligations -/

/-- Settles O12: the run up to the completion is one `exec`, from the accepting edge and from any
record in flight, and every `exec` leaves the block ready. -/
theorem acceptedCommandCompletes : Obligations.AcceptedCommandCompletes := by
  refine ⟨fun s c d hready hcmd hoperand hr => ?_, fun n s w hf hr => ?_⟩
  · obtain ⟨-, hempty⟩ := (State.cmdReady_eq_true_iff s).mp hready
    have hrun := steps_of_accepted hready hcmd ((s.hostOperand_eq_ok_iff _ d).mpr hoperand) hr
    rw [State.withInFlight_none_of_empty hempty] at hrun
    obtain ⟨t, hx, ht⟩ := exec_leaves_ready (decode (mkWord c.op d))
      (s := s.withInputs (s.inputs.drop (Config.latency c.op + 1))) hempty
    exact ⟨t, hrun.trans hx, hx, ht⟩
  · obtain ⟨t, hx, ht⟩ := exec_leaves_ready (decode w)
      (s := (s.withInFlight none).withInputs (s.inputs.drop (n + 1))) rfl
    exact ⟨t, (steps_of_inFlight hf hr).trans hx, hx, ht⟩

/-- Settles O13: a host that keeps its duty gets a next state, and one that does not the fault. -/
theorem stepFaultsOnlyOnInvalidRes : Obligations.StepFaultsOnlyOnInvalidRes := by
  intro s
  rw [← s.not_hostKeepsDuty_iff]
  by_cases hduty : s.HostKeepsDuty
  · obtain ⟨t, ht⟩ := blockNeverStopsDutifulHost s hduty
    exact ⟨fun f => iff_of_false (by simp [ht]) fun ⟨_, hbreach⟩ => hbreach hduty, by simp [ht]⟩
  · have hstep := step_of_not_hostKeepsDuty hduty
    refine ⟨fun f => ⟨fun hf => ?_, fun ⟨hf, _⟩ => hf ▸ hstep⟩, by simp [hstep]⟩
    exact ⟨Host.Outcome.fault.inj (hf.symm.trans hstep), hduty⟩

/-- Settles O11: `applyReset` overwrites what was in flight, and the edge's command is never looked
at. -/
theorem resetDiscardsCommandInFlight : Obligations.ResetDiscardsCommandInFlight := by
  intro s f c es
  refine ⟨by simp [State.cmdReady], _, step_of_rst_asserted rfl, rfl, rfl, rfl, rfl,
    fun hrst => (State.cmdReady_eq_true_iff _).mpr ⟨hrst, rfl⟩, ?_⟩
  exact step_of_rst_asserted rfl

end Sys2Proof.Machine

/-!
Every run from reset (10_state.md section 3), the free `RES` after an error (60_exceptions.md
section 1), and the worked command words (30_encoding.md section 5).
-/

namespace Sys2Proof.Machine

/-- Placing a list of edges before the block changes none of its registers. -/
theorem State.Legal.withInputs {s : State} (h : s.Legal) (es : List Edge) :
    (s.withInputs es).Legal :=
  h.congr rfl rfl

/-- The legal values of `STATUS` leave these four out (10_state.md R35). -/
theorem State.Legal.status_ne {s : State} (h : s.Legal) :
    s.status ≠ 0b011#3 ∧ s.status ≠ 0b101#3 ∧ s.status ≠ 0b110#3 ∧ s.status ≠ 0b111#3 := by
  obtain h | h | h | h := h <;> simp [h]

/-! ### The obligations -/

/-- Settles O23: legality holds at reset, whatever the host is to drive, and along every run. -/
theorem reachableStatusLegal : Obligations.ReachableStatusLegal := by
  rintro t ⟨es, k, hrun⟩
  have hreset : (State.reset.withInputs es).Legal := resetStatusLegal.withInputs es
  have ht : t.Legal := steps_induction State.Legal stepKeepsStatusLegal k hreset hrun
  exact ht.status_ne

/-- Settles O20: a good completion sets `RVALID`, so the command ended in an error, and the error
entry makes the draw. -/
theorem errorLeavesResFree : Obligations.ErrorLeavesResFree := by
  intro i s t h hinvalid
  obtain ⟨w, v, hx⟩ | ⟨e, hx⟩ := exec_cases i s
  · rw [exec_next_unique h hx, State.completeOk_rvalid] at hinvalid
    contradiction
  · rw [exec_next_unique h hx]
    exact ⟨s.raiseError_res e, s.raiseError_draws e⟩

/-- Settles O1: nine fixed words, each decoded by evaluation. -/
theorem workedEncodingsDecode : Obligations.WorkedEncodingsDecode := by
  unfold Obligations.WorkedEncodingsDecode
  decide

end Sys2Proof.Machine
